-- ==== Sys2Proof/Word.lean ====
section
/-! DEFINITION. The bit-vector widths of the block (00_scope.md R9: every value is an unsigned bit vector of a stated width),
and the bringing of one to a numeral. -/

namespace Sys2Proof

/-- One byte of the image, and operand `B` of a command. -/
abbrev Byte := BitVec 8

/-- A 16-bit program-memory word, and operand `A` of a command (an image offset or an input word). -/
abbrev Half := BitVec 16

/-- A 32-bit command word, response word or CRC value. -/
abbrev Word := BitVec 32

/-- `CK14_WIDTH` (R5), the width of the CK14 engine's state. -/
abbrev Config.ck14Width : Nat := 14

/-- The 14-bit state of the CK14 engine (R22: "a model must type it as a 14-bit vector"). -/
abbrev Acc14 := BitVec Config.ck14Width

/-- `k x`, with `x` brought to a numeral first. It is `k x` (Laws/Ops.lean: `force_eq`); written where a loop carries a value, so
that Lean's kernel can run the loops of `PLACE` and `SUFFIX`. -/
def force {n : Nat} {α : Type} (x : BitVec n) (k : BitVec n → α) : α :=
  match x.toNat with
  | 0 => k (BitVec.ofNat n 0)
  | m + 1 => k (BitVec.ofNat n (m + 1))

end Sys2Proof
end

