-- ==== Sys2Proof/Syntax.lean ====
section
/-! DEFINITION. The sixteen commands of the block, one constructor per row of spec/opcode_table.json (30_encoding.md R82). -/

namespace Sys2Proof

/-- A command with its operands: `a` is operand `A` (16 bits, R83), `b` is operand `B` (8 bits, R84). -/
inductive Instr where
  /-- `NOP` (R150). -/
  | nop
  /-- `FILL` (R151). -/
  | fill
  /-- `LDB a, b` (R152): byte address, data byte. -/
  | ldb (a : Half) (b : Byte)
  /-- `PLACE` (R170). -/
  | place
  /-- `SUFFIX` (R190). -/
  | suffix
  /-- `RUN` (R194). -/
  | run
  /-- `OUTB a` (R195): image offset. -/
  | outb (a : Half)
  /-- `RDST` (R155). -/
  | rdst
  /-- `CK14CLR` (R114). -/
  | ck14clr
  /-- `CK14ADD a` (R115): the 16-bit input word itself. -/
  | ck14add (a : Half)
  /-- `CK14MEM a` (R116): even image offset. -/
  | ck14mem (a : Half)
  /-- `RDCK14` (R117). -/
  | rdck14
  /-- `CRC32SEED` (R134). -/
  | crc32seed
  /-- `CRC32B b` (R135): input byte. -/
  | crc32b (b : Byte)
  /-- `CRC32MEM a` (R136): image offset. -/
  | crc32mem (a : Half)
  /-- `RDCRC32` (R137). -/
  | rdcrc32
  deriving DecidableEq, Repr

end Sys2Proof
end

