-- ==== Sys2Proof/WellFormed.lean ====
section
/-! DEFINITION. Which command words are legal encodings, as the spec's rows of match and mask say it (30_encoding.md R81, R82,
R87, R88 list a). The operand types of `Instr` carry the widths of R83 and R84, so every `Instr` can be encoded and the checks
are on words. The tests of an operand's VALUE (R88 list b) come after the phase test (R86) and stand in Machine/Operands.lean. -/

namespace Sys2Proof

/-- The four command formats (R81). -/
inductive Format where
  | z
  | ab
  | a
  | b
  deriving DecidableEq, Repr

/-- The decoding mask of a format (R81): opcode bits and the bits that must be zero. -/
def Format.mask : Format → Word
  | .z  => 0xFFFFFFFF#32
  | .ab => 0xFF000000#32
  | .a  => 0xFF0000FF#32
  | .b  => 0xFFFFFF00#32

/-- One row of the opcode map (R82). -/
structure Row where
  format : Format
  pattern : Word
  deriving DecidableEq, Repr

/-- The opcode map, row by row (R82; `pattern` is its `match` column). -/
def rows : List Row :=
  [ ⟨.z,  0x00000000#32⟩   -- NOP
  , ⟨.z,  0x01000000#32⟩   -- FILL
  , ⟨.ab, 0x02000000#32⟩   -- LDB
  , ⟨.z,  0x03000000#32⟩   -- PLACE
  , ⟨.z,  0x04000000#32⟩   -- SUFFIX
  , ⟨.z,  0x05000000#32⟩   -- RUN
  , ⟨.a,  0x06000000#32⟩   -- OUTB
  , ⟨.z,  0x07000000#32⟩   -- RDST
  , ⟨.z,  0x10000000#32⟩   -- CK14CLR
  , ⟨.a,  0x11000000#32⟩   -- CK14ADD
  , ⟨.a,  0x12000000#32⟩   -- CK14MEM
  , ⟨.z,  0x13000000#32⟩   -- RDCK14
  , ⟨.z,  0x20000000#32⟩   -- CRC32SEED
  , ⟨.b,  0x21000000#32⟩   -- CRC32B
  , ⟨.a,  0x22000000#32⟩   -- CRC32MEM
  , ⟨.z,  0x23000000#32⟩ ] -- RDCRC32

/-- "A command word `c` is an instance of a row of rule R82 exactly when `(c & mask) = match`" (R81). -/
def Row.matchesWord (r : Row) (c : Word) : Bool := c &&& r.format.mask == r.pattern

/-- The word is one of the sixteen commands: an assigned opcode and zero reserved fields (R87, R88 list a). -/
def wordWellFormed (c : Word) : Bool := rows.any (fun r => r.matchesWord c)

end Sys2Proof
end

