-- ==== Sys2Proof/Decode.lean ====
section
/-! DEFINITION. From a 32-bit command word to a command and back (30_encoding.md R80 to R88, R96). -/

namespace Sys2Proof

/-! ## Fields (R80) -/

/-- `OP`, bits 31:24. -/
def opField (c : Word) : Byte := c.extractLsb' 24 8

/-- `A`, bits 23:8. -/
def aField (c : Word) : Half := c.extractLsb' 8 16

/-- `B`, bits 7:0. -/
def bField (c : Word) : Byte := c.extractLsb' 0 8

/-! ## The decoder (R86 steps 1 to 3) -/

/-- Format `Z`: `A` and `B` must be zero (R81, R87). -/
def formatZ (c : Word) (i : Instr) : Option Instr :=
  if aField c = 0#16 ∧ bField c = 0#8 then some i else none

/-- Format `A`: `B` must be zero (R81, R87). -/
def formatA (c : Word) (mk : Half → Instr) : Option Instr :=
  if bField c = 0#8 then some (mk (aField c)) else none

/-- Format `B`: `A` must be zero (R81, R87). -/
def formatB (c : Word) (mk : Byte → Instr) : Option Instr :=
  if aField c = 0#16 then some (mk (bField c)) else none

/-- The decoder. `none` is an illegal word by spelling (R88 list a), for which R86 raises `ILLCMD`; it is total on the 32-bit
words. -/
def decode (c : Word) : Option Instr :=
  match (opField c).toNat with
  | 0x00 => formatZ c .nop
  | 0x01 => formatZ c .fill
  | 0x02 => some (.ldb (aField c) (bField c))
  | 0x03 => formatZ c .place
  | 0x04 => formatZ c .suffix
  | 0x05 => formatZ c .run
  | 0x06 => formatA c .outb
  | 0x07 => formatZ c .rdst
  | 0x10 => formatZ c .ck14clr
  | 0x11 => formatA c .ck14add
  | 0x12 => formatA c .ck14mem
  | 0x13 => formatZ c .rdck14
  | 0x20 => formatZ c .crc32seed
  | 0x21 => formatB c .crc32b
  | 0x22 => formatA c .crc32mem
  | 0x23 => formatZ c .rdcrc32
  | _    => none

/-- What the decoder reads from a row of spec/opcode_table.json whose `nbits` bits are `w`: a command is one word, so the bits
above `nbits` are zero. -/
def decodeTableWord (nbits w : Nat) : Option Instr := decode (BitVec.ofNat 32 (w % 2 ^ nbits))

/-! ## The encoder (R82, R96) -/

/-- The opcode of a command (R82). -/
def Instr.opcode : Instr → Byte
  | .nop        => 0x00#8
  | .fill       => 0x01#8
  | .ldb _ _    => 0x02#8
  | .place      => 0x03#8
  | .suffix     => 0x04#8
  | .run        => 0x05#8
  | .outb _     => 0x06#8
  | .rdst       => 0x07#8
  | .ck14clr    => 0x10#8
  | .ck14add _  => 0x11#8
  | .ck14mem _  => 0x12#8
  | .rdck14     => 0x13#8
  | .crc32seed  => 0x20#8
  | .crc32b _   => 0x21#8
  | .crc32mem _ => 0x22#8
  | .rdcrc32    => 0x23#8

/-- Operand `A` of a command, zero where its format has none. -/
def Instr.operandA : Instr → Half
  | .ldb a _ | .outb a | .ck14add a | .ck14mem a | .crc32mem a => a
  | _ => 0#16

/-- Operand `B` of a command, zero where its format has none. -/
def Instr.operandB : Instr → Byte
  | .ldb _ b | .crc32b b => b
  | _ => 0#8

/-- "`OP << 24 | A << 8 | B` with absent operands zero" (R96). -/
def encode (i : Instr) : Word :=
  (i.opcode.setWidth 32 <<< 24) ||| (i.operandA.setWidth 32 <<< 8) ||| i.operandB.setWidth 32

end Sys2Proof
end

