-- ==== Sys2Proof/Config.lean ====
section
/-! DEFINITION. The constants of the block (00_scope.md R5), its build parameters with their constraints (R6, R7), and the
values the spec leaves open, as uninterpreted constants. -/

namespace Sys2Proof

/-! ## Constants (R5): each literal once -/

namespace Config

/-- `POLY14`, XORed into the 14-bit state (`CK14_WIDTH` is `Config.ck14Width`, Word.lean). -/
abbrev poly14 : Acc14 := BitVec.ofNat ck14Width 0x23B1
/-- `CK14_SEED`. -/
abbrev ck14Seed : Acc14 := BitVec.ofNat ck14Width 0x0000
/-- `CK14_NBITS`, input bits consumed per word. -/
abbrev ck14Nbits : Nat := 16
/-- `POLY32`, the reflected CRC-32 polynomial. -/
abbrev poly32 : Word := 0xEDB88320#32
/-- `CRC32_SEED`. -/
abbrev crc32Seed : Word := 0xFFFFFFFF#32
/-- `CRC32_XOROUT`: none, that is 0. -/
abbrev crc32Xorout : Word := 0x00000000#32
/-- `FILL_EVEN`, the erased value of a byte at an even offset. -/
abbrev fillEven : Byte := 0xFF#8
/-- `FILL_ODD`, the erased value of a byte at an odd offset. -/
abbrev fillOdd : Byte := 0x3F#8
/-- `WIN_LO`, the first byte address the load port accepts. -/
abbrev winLo : Nat := 0x0400
/-- `WIN_HI`, the first byte address above the load window. -/
abbrev winHi : Nat := 0x8000
/-- `CK_START`, the first byte of the checksum scan. -/
abbrev ckStart : Nat := 0x0400
/-- `CK_STOP`, the stop byte address of the scan. -/
abbrev ckStop : Nat := 0x3F00
/-- `CK_SLOT = CK_STOP - 2`, the reserved checksum slot. -/
abbrev ckSlot : Nat := 0x3EFE
/-- `SUFFIX_LEN`. -/
abbrev suffixLen : Nat := 16
/-- `HDR_LEN`, suffix bytes before the CRC field. -/
abbrev hdrLen : Nat := 12
/-- `BCD_DEVICE`, firmware version "unspecified". -/
abbrev bcdDevice : Half := 0xFFFF#16
/-- `BCD_DFU`, DFU specification version. -/
abbrev bcdDfu : Half := 0x0100#16
/-- `SIG`, the letters `U`, `F`, `D` at ascending offsets (ASCII codes, 93_implementation_defined.md G2). -/
abbrev signature : List Byte := [0x55#8, 0x46#8, 0x44#8]
/-- The largest `IMG_LEN` R7 admits: every offset fits the 16-bit address operand. -/
abbrev maxImgLen : Nat := 0x10000

/-! ## Values the spec leaves open -/

/-- `USB_VID` of the instance at reset: "OPEN; no default" (R6, D8). Uninterpreted (log 6). -/
opaque usbVid : Half

/-- `USB_PID` of the instance at reset: "OPEN; no default" (R6, D8). Uninterpreted (log 6). -/
opaque usbPid : Half

end Config

/-! ## The recurrences that meet R112 (log 7) -/

/-- The bit the constant is XORed on (R112 c: "conditionally on a state or input bit"). -/
inductive Ck14Condition where
  /-- Bit `k` of the register. -/
  | state (k : Fin Config.ck14Nbits)
  /-- Bit `i` of the word. -/
  | input (i : Fin Config.ck14Nbits)
  deriving DecidableEq, Repr

/-- A shift by one place (R118). -/
inductive Ck14Shift where
  | left
  | right
  deriving DecidableEq, Repr

/-- Bit `word` of the input word, as bit `place` of the register. -/
structure Ck14Input where
  word  : Fin Config.ck14Nbits
  place : Fin Config.ck14Nbits
  deriving DecidableEq, Repr

/-- One bit step of R112 (b), made of shifts and XORs only (c), in this order. No constant but `POLY14` can be written in it: a bit
of the word is XORed in as one bit, and the state as a whole, shifted by one or as it is. -/
structure Ck14Step where
  /-- The bits of the word XORed into the register first, as `V3` does. -/
  enter        : List Ck14Input
  /-- `POLY14` XORed in, once for each of these bits that is 1. -/
  foldFirst    : List Ck14Condition
  /-- The shift. -/
  shift        : Ck14Shift
  /-- Whether the register as it was before the shift is XORed in. -/
  plusSelf     : Bool
  /-- Whether the register shifted the other way is XORed in. -/
  plusOpposite : Bool
  /-- The bits of the word shifted in, as `V1` does. -/
  shiftIn      : List Ck14Input
  /-- `POLY14` XORed in, once for each of these bits that was 1 before the shift. -/
  fold         : List Ck14Condition
  /-- Whether 14 bits are kept, as `V1` and `V2` do ("mod 2^14"); `V3` keeps 16 until its last step. -/
  narrow       : Bool
  deriving DecidableEq, Repr

/-- The sixteen bit steps of one call, first step first (R112 b). -/
structure Ck14Recurrence where
  steps : Vector Ck14Step Config.ck14Nbits
  deriving DecidableEq, Repr

/-- The condition's bit, with the register at `y` and the input word `w`. -/
def Ck14Condition.bit (y w : Half) : Ck14Condition → Bool
  | .state k => y.getLsbD k.val
  | .input i => w.getLsbD i.val

/-- `t` with `POLY14` XORed in where `c` is 1. -/
def Ck14Recurrence.foldIf (c : Bool) (t : Half) : Half := if c then t ^^^ Config.poly14.setWidth 16 else t

/-- `t` with `POLY14` XORed in once for each condition that holds of `y` and `w`. -/
def Ck14Condition.foldAll (y w : Half) : List Ck14Condition → Half → Half
  | [], t => t
  | c :: l, t => Ck14Condition.foldAll y w l (Ck14Recurrence.foldIf (c.bit y w) t)

/-- `t` with bits of the word `w` XORed in. -/
def Ck14Input.enterAll (w : Half) : List Ck14Input → Half → Half
  | [], t => t
  | e :: l, t => Ck14Input.enterAll w l (t ^^^ (BitVec.ofBool (w.getLsbD e.word.val)).setWidth 16 <<< e.place.val)

/-- The shift. -/
def Ck14Shift.run (t : Half) : Ck14Shift → Half
  | .left  => t <<< 1
  | .right => t >>> 1

/-- The other direction. -/
def Ck14Shift.opposite : Ck14Shift → Ck14Shift
  | .left  => .right
  | .right => .left

/-- The shift of a step, with the copies of the register `z` that are XORed in. -/
def Ck14Step.move (e : Ck14Step) (z : Half) : Half :=
  e.shift.run z ^^^ (if e.plusSelf then z else 0#16) ^^^ (if e.plusOpposite then e.shift.opposite.run z else 0#16)

/-- What the register keeps of a step. -/
def Ck14Step.keep (e : Ck14Step) (t : Half) : Half := if e.narrow then (t.setWidth Config.ck14Width).setWidth 16 else t

/-- One bit step, with the register at `x` and the input word `w`. -/
def Ck14Step.run (e : Ck14Step) (w x : Half) : Half :=
  force (Ck14Input.enterAll w e.enter x) fun y =>
  force (Ck14Condition.foldAll y w e.foldFirst y) fun z =>
    e.keep (Ck14Condition.foldAll y w e.fold (Ck14Input.enterAll w e.shiftIn (e.move z)))

/-- Bit steps in order. -/
def Ck14Step.runAll (w : Half) : List Ck14Step → Half → Half
  | [], x => x
  | e :: l, x => force (e.run w x) fun y => Ck14Step.runAll w l y

/-- The function of the recurrence: the `CK14_NBITS` bit steps from the 14-bit state, and 14 bits of the result (R112 a, b). -/
def Ck14Recurrence.apply (r : Ck14Recurrence) (x : Acc14) (w : Half) : Acc14 :=
  (Ck14Step.runAll w r.steps.toList (x.setWidth 16)).setWidth Config.ck14Width

/-- The step with the constant never XORed in. -/
def Ck14Step.withoutPoly (e : Ck14Step) : Ck14Step := { e with foldFirst := [], fold := [] }

/-- The recurrence with the constant never XORed in. -/
def Ck14Recurrence.withoutPoly (r : Ck14Recurrence) : Ck14Recurrence where
  steps := r.steps.map Ck14Step.withoutPoly

/-- The bits of the word that the steps XOR in, one entry for each place they go to. -/
def Ck14Recurrence.wordBits (r : Ck14Recurrence) : List (Fin Config.ck14Nbits) :=
  r.steps.toList.flatMap fun e => (e.enter ++ e.shiftIn).map Ck14Input.word

/-- What is left to ask of a recurrence of that form. No bit of the word goes to two places, so that none carries a constant in (c).
The rest is asked of single bits, because the function is linear: every input bit counts (b); the constant counts (c); two words in
the other order can give another result (g), which one word and the zero word show. -/
def Ck14Recurrence.meetsR112 (r : Ck14Recurrence) : Bool :=
  let stateBits := (List.range Config.ck14Width).map (BitVec.twoPow Config.ck14Width)
  let wordBits := (List.range Config.ck14Nbits).map (BitVec.twoPow 16)
  decide r.wordBits.Nodup &&
  wordBits.all (fun w => r.apply 0 w != 0) &&
  (stateBits.any (fun x => r.apply x 0 != r.withoutPoly.apply x 0) ||
    wordBits.any (fun w => r.apply 0 w != r.withoutPoly.apply 0 w)) &&
  wordBits.any (fun w => r.apply (r.apply 0 w) 0 != r.apply 0 w)

/-- A recurrence meeting R112. -/
abbrev Ck14Function := { r : Ck14Recurrence // r.meetsR112 = true }

/-! ## Parameters (R6) -/

/-- `CK14_VARIANT` (R6, R113). -/
inductive Ck14Variant where
  /-- "shift-in", the default (R110, R111). -/
  | v1
  /-- "feedback-XOR" (R113). -/
  | v2
  /-- "reflected" (R113). -/
  | v3
  /-- Any recurrence meeting R112, passed as the argument (log 7). -/
  | other (f : Ck14Function)
  deriving DecidableEq, Repr

/-- How many 16-bit words `PM_SIZE` may exceed `WIN_HI` by, plus one: what R7 leaves of it (log 5). -/
abbrev Config.pmExtraBound : Nat := (Config.maxImgLen - Config.suffixLen - Config.winHi) / 2 + 1

/-- One build of the block: the parameters of R6, fixed for its life (R31, R301; log 4). `PM_SIZE` is held as the number of
16-bit words above `WIN_HI`, so that every value of the type meets R7 and no other exists (log 5). -/
structure Params where
  pmExtra : Fin Config.pmExtraBound
  usbVid  : Half
  usbPid  : Half
  ck14    : Ck14Variant
  deriving DecidableEq, Repr

/-- `PM_SIZE`, in bytes. -/
def Params.pmSize (p : Params) : Nat := Config.winHi + 2 * p.pmExtra.val

/-- `IMG_LEN = PM_SIZE + SUFFIX_LEN`. -/
def Params.imgLen (p : Params) : Nat := p.pmSize + Config.suffixLen

/-- The instance State.reset carries: the spec's defaults `PM_SIZE = 0x8000` (D7) and `V1` (D9), and the two uninterpreted
identifiers (log 6). -/
def Params.default : Params where
  pmExtra := 0
  usbVid  := Config.usbVid
  usbPid  := Config.usbPid
  ck14    := .v1

end Sys2Proof
end

