-- ==== Sys2Proof/Machine/State.lean ====
section
/-! DEFINITION. The architectural state of the block (10_state.md R20), its reset value (R33, R300) and the reasons a step can
stop. -/

namespace Sys2Proof.Machine

/-- The phase of the conversion, `PH` (R23): five values, so that the codes 5 to 7 "do not exist" (U10; log 13). -/
inductive Phase where
  /-- 0: after reset; `IMG` holds no defined value. -/
  | rst
  /-- 1: `IMG` has been filled; bytes may be loaded. -/
  | load
  /-- 2: the checksum is in the slot; program memory is final. -/
  | placed
  /-- 3: the suffix is written; the image may be output. -/
  | done
  /-- 4: the conversion failed (`OOB` or `CONFLICT`). -/
  | fail
  deriving DecidableEq, Repr

/-- What the host presents to the block (R8): a command word, or the reset event, which "may occur between any two commands"
(R300; log 1, log 11). -/
inductive HostEvent where
  | command (c : Word)
  | reset
  deriving DecidableEq, Repr

/-- The image as data: (offset, byte) pairs, offsets strictly rising, none equal to what an unlisted offset reads as
(Machine/Ops.lean: `Memory.unlisted`). -/
abbrev Memory := List Host.Cell

/-- The whole architectural state of the block (R20: "Nothing else is state"). -/
structure Block where
  /-- `IMG` (R25). -/
  img      : Memory
  /-- `S14`, accumulator of the CK14 engine (R22). -/
  s14      : Acc14
  /-- `C32`, accumulator of the CRC-32 engine (R24). -/
  c32      : Word
  /-- `OOB` (R27). -/
  oob      : Bool
  /-- `CONFLICT` (R27). -/
  conflict : Bool
  /-- `PH` (R23). -/
  ph       : Phase
  /-- `SEQERR` (R28). -/
  seqerr   : Bool
  /-- `ILLCMD` (R28). -/
  illcmd   : Bool
  deriving DecidableEq, Repr

/-- The block and, around it, what R31 makes "parameters or inputs of its step function" and its output: the build, the host's
events to come, and the response the host got from the last step. The block's own step function is `transact`
(Machine/Transact.lean); it takes the build and the command word and returns the response, and reads or writes none of the three
fields below. -/
structure State extends Block where
  /-- The build parameters (R6): no state of the block, and never changed (R31, R301; log 4). -/
  params   : Params
  /-- The host's events to come, first one next: an input, no state of the block (R31; log 1). -/
  port     : List HostEvent
  /-- What the host got back from the last step: the response `transact` returned, if that step presented a command. It is on the
  host's side and no state of the block (R8, R31, R85; log 3). -/
  resp     : Option Word
  deriving DecidableEq, Repr

/-- The block after the reset event (R33, R300). The image is unspecified: nothing is listed, and phase `RST` gives it no value
(log 8). -/
def Block.reset : Block where
  img      := []
  s14      := Config.ck14Seed
  c32      := Config.crc32Seed
  oob      := false
  conflict := false
  ph       := .rst
  seqerr   := false
  illcmd   := false

/-- The reset block in the default build, with nothing presented and no response (log 6, log 1, log 3). -/
def State.reset : State where
  toBlock := Block.reset
  params  := Params.default
  port    := []
  resp    := none

/-- Why the machine stops. The block's own error conditions (60_exceptions.md R260) are no stops: they are next states. These two
guard the memory primitives (log 9); no command of the block raises either (R33, R52). -/
inductive Fault where
  /-- Raised by `Block.memRead` in phase `RST`, where the image holds no value (R33, U3). Safe: the model gives it no outcome. -/
  | undefinedImage
  /-- Raised by `Block.memRead` and `Block.memWrite` when the access reaches past `IMG_LEN` (R9, R52). Safe: the address does not
  exist. -/
  | outsideImage
  deriving DecidableEq, Repr

/-- Why the model gives an instruction no meaning. -/
inductive Refusal where
  /-- Raised by an arm of `exec` whose instruction has no meaning yet; no arm is such. Safe: the model stops. -/
  | notModelled (mnemonic : String)
  deriving DecidableEq, Repr

end Sys2Proof.Machine
end

