-- ==== Sys2Proof/Machine/Ops.lean ====
section
/-! DEFINITION. The named operations over the image and the registers: reading and writing bytes (20_memory.md R50 to R58), the
refusals (R266), the entry into `FAIL` (R269), the reset event (R300), and what the host gets back (R8, R85). -/

namespace Sys2Proof.Machine

/-! ## The image -/

/-- The erased value of a byte (R26): it depends only on the parity of the offset. -/
def fillByte (a : Nat) : Byte := if a % 2 = 0 then Config.fillEven else Config.fillOdd

/-- What an offset that is not listed reads as (log 8). -/
def Memory.unlisted (a : Nat) : Byte := fillByte a

/-- One byte of the image. -/
def Memory.read : Memory → Nat → Byte
  | [], a => Memory.unlisted a
  | (k, v) :: m, a => if a = k then v else Memory.read m a

/-- The list with no entry at `a`. -/
def Memory.remove (m : Memory) (a : Nat) : Memory := m.filter (fun c => c.1 ≠ a)

/-- The list with the entry `(a, b)`, in its place among rising offsets. -/
def Memory.place : Memory → Nat → Byte → Memory
  | [], a, b => [(a, b)]
  | (k, v) :: m, a, b =>
    if a < k then (a, b) :: (k, v) :: m
    else if a = k then (a, b) :: m
    else (k, v) :: Memory.place m a b

/-- `IMG[a] <- b`, keeping the canonical form: what an unlisted offset reads as is not listed. -/
def Memory.write (m : Memory) (a : Nat) (b : Byte) : Memory :=
  if b = Memory.unlisted a then m.remove a else m.place a b

/-- `n` bytes from offset `a` up, in ascending offset. -/
def Memory.readBytes (m : Memory) : Nat → Nat → List Byte
  | _, 0 => []
  | a, n + 1 => Memory.read m a :: Memory.readBytes m (a + 1) n

/-- The bytes written from offset `a` up, in ascending offset (R9 `MemWrite`). -/
def Memory.writeBytes (m : Memory) : Nat → List Byte → Memory
  | _, [] => m
  | a, b :: bs => Memory.writeBytes (Memory.write m a b) (a + 1) bs

/-- The image every byte of which is erased (R26): nothing is listed (log 10). -/
def Memory.erased : Memory := []

/-- The canonical form: listed offsets strictly rising and below `bound`, no listed byte equal to what an unlisted offset reads
as. -/
def Memory.wf (bound : Nat) : Memory → Bool
  | [] => true
  | (k, v) :: m =>
    decide (k < bound) && decide (v ≠ Memory.unlisted k) && m.all (fun c => decide (k < c.1)) && Memory.wf bound m

/-- `MemRead(addr, n)` (R9, R55), as the list of its bytes in ascending offset. It needs `addr + n <= IMG_LEN`, and in phase `RST`
the image holds no value (R33; log 8, log 9). -/
def Block.memRead (b : Block) (p : Params) (a n : Nat) : Except Fault (List Byte) :=
  if b.ph = .rst then .error .undefinedImage
  else if p.imgLen < a + n then .error .outsideImage
  else .ok (b.img.readBytes a n)

/-- `MemWrite(addr, n, v)` (R9, R55), its value given as the list of its bytes in ascending offset. It needs
`addr + n <= IMG_LEN` (log 9). -/
def Block.memWrite (b : Block) (p : Params) (a : Nat) (bs : List Byte) : Except Fault Block :=
  if p.imgLen < a + bs.length then .error .outsideImage
  else .ok { b with img := b.img.writeBytes a bs }

/-- `MemRead` of the block in its build. -/
def State.memRead (s : State) (a n : Nat) : Except Fault (List Byte) := s.toBlock.memRead s.params a n

/-! ## The end of a command -/

/-- The sticky bit of `raise SEQERR` (R9, R266); nothing else changes. -/
def Block.raiseSeqerr (b : Block) : Block := { b with seqerr := true }

/-- The sticky bit of `raise ILLCMD` (R9, R266); nothing else changes. -/
def Block.raiseIllcmd (b : Block) : Block := { b with illcmd := true }

/-- Entry into `FAIL` (R269): `PH <- FAIL`; nothing is saved and control goes nowhere. There is no return (R270); the reset event
is the only way out. -/
def Block.enterFail (b : Block) : Block := { b with ph := .fail }

/-- The reset event (R300, R301): every register to its reset value; the parameters are no state and stay, and so do the host's
events still to come (log 11). -/
def State.resetEvent (s : State) (rest : List HostEvent) : State :=
  { State.reset with params := s.params, port := rest }

/-- The host gets the block a command left and the response it returned (R8; log 3). -/
def State.deliver (s : State) (r : Block × Word) : State := { s with toBlock := r.1, resp := some r.2 }

/-- The outcome of a command. -/
def settle (s : State) : Except Fault (Block × Word) → Host.Outcome State Fault Refusal
  | .ok r    => .next (s.deliver r)
  | .error f => .fault f

end Sys2Proof.Machine
end

