-- ==== Sys2Proof/Machine/Flags.lean ====
section
/-! DEFINITION. The flags `OOB` and `CONFLICT` (10_state.md R27) and the `STATUS` view (R29, 30_encoding.md R95). The block has no
arithmetic condition codes. -/

namespace Sys2Proof.Machine

/-- The code of a phase (R23). -/
def Phase.code : Phase → BitVec 3
  | .rst    => 0#3
  | .load   => 1#3
  | .placed => 2#3
  | .done   => 3#3
  | .fail   => 4#3

/-- `OOB <- 1` (R154). -/
def Block.setOob (b : Block) : Block := { b with oob := true }

/-- `CONFLICT <- 1` (R173). -/
def Block.setConflict (b : Block) : Block := { b with conflict := true }

/-- `OUT_VALID`: 1 exactly when `PH = DONE`; derived, not stored (R95). -/
def Block.outValid (b : Block) : Bool := b.ph == .done

/-- `STATUS` = `zext_32(OUT_VALID ++ ILLCMD ++ SEQERR ++ CONFLICT ++ OOB ++ 0b0 ++ PH)` (R95, R155). -/
def Block.status (b : Block) : Word :=
  (BitVec.ofBool b.outValid ++ BitVec.ofBool b.illcmd ++ BitVec.ofBool b.seqerr ++ BitVec.ofBool b.conflict ++
    BitVec.ofBool b.oob ++ 0#1 ++ b.ph.code).setWidth 32

end Sys2Proof.Machine
end

