-- ==== Sys2Proof/Machine/Operands.lean ====
section
/-! DEFINITION. Operands: words in the image (20_memory.md R54 to R56), the load window (R59, R152), the legal phases of a command
(60_exceptions.md R264), the legal operand values (30_encoding.md R88 list b), and the tests every command passes before its body
(R86 steps 4 and 5, R268). -/

namespace Sys2Proof.Machine

/-! ## Words and bytes, little-endian (R54) -/

/-- `IMG[a+1] ++ IMG[a]` from the two bytes in ascending offset (R56). -/
def wordOfBytes (lo hi : Byte) : Half := hi ++ lo

/-- The two bytes of a 16-bit value, low byte first. -/
def bytes16 (v : Half) : List Byte := [v.extractLsb' 0 8, v.extractLsb' 8 8]

/-- The four bytes of a 32-bit value, low byte first. -/
def bytes32 (v : Word) : List Byte :=
  [v.extractLsb' 0 8, v.extractLsb' 8 8, v.extractLsb' 16 8, v.extractLsb' 24 8]

/-- `MemRead(a, 1)`. -/
def Block.readByte (b : Block) (p : Params) (a : Nat) : Except Fault Byte :=
  match b.memRead p a 1 with
  | .ok [v] => .ok v
  | .ok _   => .error .outsideImage
  | .error f => .error f

/-- `MemRead(a, 2)` as the word `word(a)` (R56). -/
def Block.readWord (b : Block) (p : Params) (a : Nat) : Except Fault Half :=
  match b.memRead p a 2 with
  | .ok [lo, hi] => .ok (wordOfBytes lo hi)
  | .ok _        => .error .outsideImage
  | .error f     => .error f

/-! ## Which commands are accepted -/

/-- The load window of `LDB`, `WIN_LO <= A < WIN_HI` (R152). -/
def inWindow (a : Half) : Bool := decide (Config.winLo ≤ a.toNat) && decide (a.toNat < Config.winHi)

/-- The legal-phase table (R264). -/
def phaseAllows : Instr → Phase → Bool
  | .nop, _         => true
  | .fill, p        => p == .rst
  | .ldb _ _, p     => p == .load
  | .place, p       => p == .load
  | .suffix, p      => p == .placed
  | .run, p         => p == .load
  | .outb _, p      => p == .done
  | .rdst, _        => true
  | .ck14clr, _     => true
  | .ck14add _, _   => true
  | .ck14mem _, p   => p != .rst
  | .rdck14, _      => true
  | .crc32seed, _   => true
  | .crc32b _, _    => true
  | .crc32mem _, p  => p != .rst
  | .rdcrc32, _     => true

/-- The operand values that are legal (R88 list b); every other command has no such condition. -/
def operandLegal (p : Params) : Instr → Bool
  | .outb a     => decide (a.toNat < p.imgLen)
  | .crc32mem a => decide (a.toNat < p.imgLen)
  | .ck14mem a  => decide (a.toNat % 2 = 0) && decide (a.toNat + 1 < p.imgLen)
  | _           => true

/-- R86 steps 4 to 6, in that order (R268): the phase, the operand value, the command's body. The result is the block and the
response, returned and not stored (R31, R85); a refused command responds 0 (R266). -/
def attempt (p : Params) (i : Instr) (b : Block) (body : Except Fault (Block × Word)) : Except Fault (Block × Word) :=
  if phaseAllows i b.ph then
    if operandLegal p i then body else .ok (b.raiseIllcmd, 0#32)
  else .ok (b.raiseSeqerr, 0#32)

end Sys2Proof.Machine
end

