-- ==== Sys2Proof/Machine/Image.lean ====
section
/-! DEFINITION. The commands `NOP`, `FILL`, `LDB`, `RDST` (42_image_load.md R150 to R155). -/

namespace Sys2Proof.Machine

/-- `NOP` (R150). -/
def runNop (p : Params) (b : Block) : Except Fault (Block × Word) :=
  attempt p .nop b (.ok (b, 0#32))

/-- `NOP` on the block of `s`. -/
def execNop (s : State) : Host.Outcome State Fault Refusal :=
  settle s (runNop s.params s.toBlock)

/-- `FILL` (R151): every byte gets its erased value; `PH <- LOAD`. -/
def runFill (p : Params) (b : Block) : Except Fault (Block × Word) :=
  attempt p .fill b (.ok ({ b with img := Memory.erased, ph := .load }, 0#32))

/-- `FILL` on the block of `s`. -/
def execFill (s : State) : Host.Outcome State Fault Refusal :=
  settle s (runFill s.params s.toBlock)

/-- `LDB` (R152): inside the window the byte is written (R153), outside it `OOB` is set (R154). -/
def runLdb (p : Params) (a : Half) (v : Byte) (b : Block) : Except Fault (Block × Word) :=
  attempt p (.ldb a v) b <|
    if inWindow a then do
      let t ← b.memWrite p a.toNat [v]
      .ok (t, 0#32)
    else .ok (b.setOob, 0#32)

/-- `LDB` on the block of `s`. -/
def execLdb (a : Half) (v : Byte) (s : State) : Host.Outcome State Fault Refusal :=
  settle s (runLdb s.params a v s.toBlock)

/-- `RDST` (R155). -/
def runRdst (p : Params) (b : Block) : Except Fault (Block × Word) :=
  attempt p .rdst b (.ok (b, b.status))

/-- `RDST` on the block of `s`. -/
def execRdst (s : State) : Host.Outcome State Fault Refusal :=
  settle s (runRdst s.params s.toBlock)

end Sys2Proof.Machine
end

