-- ==== Sys2Proof/Machine/Crc32.lean ====
section
/-! DEFINITION. The CRC-32 engine and its commands `CRC32SEED`, `CRC32B`, `CRC32MEM`, `RDCRC32` (41_crc32_engine.md R130 to R137). -/

namespace Sys2Proof.Machine

/-! ## The recurrence -/

/-- One reflected shift step (R130). -/
def crc32Shift (c : Word) : Word :=
  if c.getLsbD 0 then (c >>> 1) ^^^ Config.poly32 else c >>> 1

/-- `n` reflected shift steps. -/
def crc32Shifts : Nat → Word → Word
  | 0, c => c
  | n + 1, c => force (crc32Shift c) fun d => crc32Shifts n d

/-- `T32[i]`: eight steps on `zext_32(i)` (R130). A constant of the block, no state (R30). -/
def t32 (i : Byte) : Word := crc32Shifts 8 (i.setWidth 32)

/-- `crc32_byte` (R131): `T32[C[7:0] ^ b] ^ (C >> 8)`, the shift logical. -/
def crc32Byte (c : Word) (b : Byte) : Word := t32 (c.extractLsb' 0 8 ^^^ b) ^^^ (c >>> 8)

/-- `crc32_bytes` (R132): first byte first, no final XOR. -/
def crc32Bytes : Word → List Byte → Word
  | c, [] => c
  | c, b :: bs => crc32Bytes (crc32Byte c b) bs

/-- The result of a CRC from its running value (R132): `CRC32_XOROUT` applied, which is no final XOR. -/
def crcResult (c : Word) : Word := c ^^^ Config.crc32Xorout

/-! ## The commands -/

/-- `CRC32SEED` (R134). -/
def runCrc32seed (p : Params) (b : Block) : Except Fault (Block × Word) :=
  attempt p .crc32seed b (.ok ({ b with c32 := Config.crc32Seed }, 0#32))

/-- `CRC32SEED` on the block of `s`. -/
def execCrc32seed (s : State) : Host.Outcome State Fault Refusal :=
  settle s (runCrc32seed s.params s.toBlock)

/-- `CRC32B` (R135). -/
def runCrc32b (p : Params) (v : Byte) (b : Block) : Except Fault (Block × Word) :=
  attempt p (.crc32b v) b (.ok ({ b with c32 := crc32Byte b.c32 v }, 0#32))

/-- `CRC32B` on the block of `s`. -/
def execCrc32b (v : Byte) (s : State) : Host.Outcome State Fault Refusal :=
  settle s (runCrc32b s.params v s.toBlock)

/-- `CRC32MEM` (R136). -/
def runCrc32mem (p : Params) (a : Half) (b : Block) : Except Fault (Block × Word) :=
  attempt p (.crc32mem a) b do
    let v ← b.readByte p a.toNat
    .ok ({ b with c32 := crc32Byte b.c32 v }, 0#32)

/-- `CRC32MEM` on the block of `s`. -/
def execCrc32mem (a : Half) (s : State) : Host.Outcome State Fault Refusal :=
  settle s (runCrc32mem s.params a s.toBlock)

/-- `RDCRC32` (R137): `C32` as it stands (`CRC32_XOROUT` is none). -/
def runRdcrc32 (p : Params) (b : Block) : Except Fault (Block × Word) :=
  attempt p .rdcrc32 b (.ok (b, crcResult b.c32))

/-- `RDCRC32` on the block of `s`. -/
def execRdcrc32 (s : State) : Host.Outcome State Fault Refusal :=
  settle s (runRdcrc32 s.params s.toBlock)

end Sys2Proof.Machine
end

