-- ==== Sys2Proof/Machine/Ck14.lean ====
section
/-! DEFINITION. The 14-bit polynomial checksum engine and its commands `CK14CLR`, `CK14ADD`, `CK14MEM`, `RDCK14`
(40_ck14_engine.md R110 to R117). -/

namespace Sys2Proof.Machine

/-! ## The recurrence -/

/-- `ck14_bit`, variant `V1` (R110): the bit enters at bit 0; the bit that leaves at the top selects the XOR. -/
def ck14BitV1 (x : Acc14) (b : Bool) : Acc14 :=
  let t : BitVec (Config.ck14Width + 1) := x ++ BitVec.ofBool b
  if t.getLsbD Config.ck14Width then t.extractLsb' 0 Config.ck14Width ^^^ Config.poly14 else t.extractLsb' 0 Config.ck14Width

/-- `ck14_bit_V2` (R113): the feedback is the top bit XOR the input bit. -/
def ck14BitV2 (x : Acc14) (b : Bool) : Acc14 :=
  let fb := x.getLsbD (Config.ck14Width - 1) ^^ b
  let u : Acc14 := x.extractLsb' 0 (Config.ck14Width - 1) ++ 0#1
  if fb then u ^^^ Config.poly14 else u

/-- The bits `w[n-1]` down to `w[0]` folded in, most significant first (R111: `n = CK14_NBITS`). -/
def foldBits (bit : Acc14 → Bool → Acc14) (w : Half) : Nat → Acc14 → Acc14
  | 0, x => x
  | n + 1, x => force (bit x (w.getLsbD n)) fun y => foldBits bit w n y

/-- One shift of `V3` (R113). -/
def ck14ShiftV3 (t : Half) : Half :=
  if t.getLsbD 0 then (t >>> 1) ^^^ Config.poly14.setWidth 16 else t >>> 1

/-- `n` shifts of `V3`. -/
def ck14ShiftsV3 : Nat → Half → Half
  | 0, t => t
  | n + 1, t => force (ck14ShiftV3 t) fun u => ck14ShiftsV3 n u

/-- `ck14_word_V3` (R113): the whole word XORed in, sixteen right shifts, bits 13:0. -/
def ck14WordV3 (x : Acc14) (w : Half) : Acc14 := (ck14ShiftsV3 Config.ck14Nbits (x.setWidth 16 ^^^ w)).extractLsb' 0 Config.ck14Width

/-- `ck14_word` (R111, R113, R112) of the build's variant; always the full 16 bits of input. -/
def ck14Word : Ck14Variant → Acc14 → Half → Acc14
  | .v1, x, w      => foldBits ck14BitV1 w Config.ck14Nbits x
  | .v2, x, w      => foldBits ck14BitV2 w Config.ck14Nbits x
  | .v3, x, w      => ck14WordV3 x w
  | .other f, x, w => f.val.apply x w

/-- `ck14_seq` (R111): a sequence of words folded in order. -/
def ck14Seq (v : Ck14Variant) : Acc14 → List Half → Acc14
  | x, [] => x
  | x, w :: ws => ck14Seq v (ck14Word v x w) ws

/-! ## The commands -/

/-- `CK14CLR` (R114). -/
def runCk14clr (p : Params) (b : Block) : Except Fault (Block × Word) :=
  attempt p .ck14clr b (.ok ({ b with s14 := Config.ck14Seed }, 0#32))

/-- `CK14CLR` on the block of `s`. -/
def execCk14clr (s : State) : Host.Outcome State Fault Refusal :=
  settle s (runCk14clr s.params s.toBlock)

/-- `CK14ADD` (R115). -/
def runCk14add (p : Params) (a : Half) (b : Block) : Except Fault (Block × Word) :=
  attempt p (.ck14add a) b (.ok ({ b with s14 := ck14Word p.ck14 b.s14 a }, 0#32))

/-- `CK14ADD` on the block of `s`. -/
def execCk14add (a : Half) (s : State) : Host.Outcome State Fault Refusal :=
  settle s (runCk14add s.params a s.toBlock)

/-- `CK14MEM` (R116). -/
def runCk14mem (p : Params) (a : Half) (b : Block) : Except Fault (Block × Word) :=
  attempt p (.ck14mem a) b do
    let w ← b.readWord p a.toNat
    .ok ({ b with s14 := ck14Word p.ck14 b.s14 w }, 0#32)

/-- `CK14MEM` on the block of `s`. -/
def execCk14mem (a : Half) (s : State) : Host.Outcome State Fault Refusal :=
  settle s (runCk14mem s.params a s.toBlock)

/-- `RDCK14` (R117): `zext_32(S14)`. -/
def runRdck14 (p : Params) (b : Block) : Except Fault (Block × Word) :=
  attempt p .rdck14 b (.ok (b, b.s14.setWidth 32))

/-- `RDCK14` on the block of `s`. -/
def execRdck14 (s : State) : Host.Outcome State Fault Refusal :=
  settle s (runRdck14 s.params s.toBlock)

end Sys2Proof.Machine
end

