-- ==== Sys2Proof/Machine/Place.lean ====
section
/-! DEFINITION. Checksum placement and the command `PLACE` (43_checksum_placement.md R170 to R174). -/

namespace Sys2Proof.Machine

/-- How many words the scan folds: 7551 (R172). -/
def scanWords : Nat := (Config.ckSlot - Config.ckStart) / 2

/-- The scan (R172): `n` words from offset `a` up folded into `x`, in ascending address order. -/
def Block.scanFrom (b : Block) (p : Params) : Nat → Nat → Acc14 → Except Fault Acc14
  | 0, _, x => .ok x
  | n + 1, a, x => do
    let w ← b.readWord p a
    force w fun v => force (ck14Word p.ck14 x v) fun y => b.scanFrom p n (a + 2) y

/-- The slot test (R173) and the store (R174), on the block whose `S14` the scan has set. -/
def slotBody (p : Params) (b : Block) : Except Fault Block := do
  let slot ← b.memRead p Config.ckSlot 2
  if slot = [Config.fillEven, Config.fillOdd] then do
    let t ← b.memWrite p Config.ckSlot (bytes16 (b.s14.setWidth 16))
    .ok { t with ph := .placed }
  else .ok b.setConflict.enterFail

/-- The body of `PLACE` (R170): the `OOB` gate (R171), the scan (R172), the slot test and the store. -/
def placeBody (p : Params) (b : Block) : Except Fault Block :=
  if b.oob then .ok b.enterFail
  else do
    let sum ← b.scanFrom p scanWords Config.ckStart Config.ck14Seed
    slotBody p { b with s14 := sum }

/-- `PLACE` (R170). -/
def runPlace (p : Params) (b : Block) : Except Fault (Block × Word) :=
  attempt p .place b do
    let t ← placeBody p b
    .ok (t, 0#32)

/-- `PLACE` on the block of `s`. -/
def execPlace (s : State) : Host.Outcome State Fault Refusal :=
  settle s (runPlace s.params s.toBlock)

end Sys2Proof.Machine
end

