-- ==== Sys2Proof/Machine/Suffix.lean ====
section
/-! DEFINITION. The DFU suffix formatter and the commands `SUFFIX`, `RUN`, `OUTB` (44_dfu_suffix.md R190 to R196). -/

namespace Sys2Proof.Machine

/-- The twelve header bytes, in ascending offset (R92, R191). -/
def suffixHeader (p : Params) : List Byte :=
  bytes16 Config.bcdDevice ++ bytes16 p.usbPid ++ bytes16 p.usbVid ++ bytes16 Config.bcdDfu ++ Config.signature ++
    [BitVec.ofNat 8 Config.suffixLen]

/-- The CRC walk (R192): `n` bytes from offset `a` up folded into `c`, in ascending offset. -/
def Block.crcFrom (b : Block) (p : Params) : Nat → Nat → Word → Except Fault Word
  | 0, _, c => .ok c
  | n + 1, a, c => do
    let v ← b.readByte p a
    force v fun v => force (crc32Byte c v) fun d => b.crcFrom p n (a + 1) d

/-- The body of `SUFFIX` (R190): the header (R191), the CRC of everything before the CRC field (R192), the CRC store (R193). -/
def suffixBody (p : Params) (b : Block) : Except Fault Block := do
  let base := p.pmSize
  let b1 ← b.memWrite p base (suffixHeader p)
  let crc ← b1.crcFrom p (base + Config.hdrLen) 0 Config.crc32Seed
  let b2 : Block := { b1 with c32 := crc }
  let b3 ← b2.memWrite p (base + Config.hdrLen) (bytes32 (crcResult b2.c32))
  .ok { b3 with ph := .done }

/-- `SUFFIX` (R190). -/
def runSuffix (p : Params) (b : Block) : Except Fault (Block × Word) :=
  attempt p .suffix b do
    let t ← suffixBody p b
    .ok (t, 0#32)

/-- `SUFFIX` on the block of `s`. -/
def execSuffix (s : State) : Host.Outcome State Fault Refusal :=
  settle s (runSuffix s.params s.toBlock)

/-- `RUN` (R194): the body of `PLACE`, then, if that left `PH = PLACED`, the body of `SUFFIX`. -/
def runRun (p : Params) (b : Block) : Except Fault (Block × Word) :=
  attempt p .run b do
    let t ← placeBody p b
    let u ← if t.ph = .placed then suffixBody p t else .ok t
    .ok (u, 0#32)

/-- `RUN` on the block of `s`. -/
def execRun (s : State) : Host.Outcome State Fault Refusal :=
  settle s (runRun s.params s.toBlock)

/-- `OUTB` (R195): `zext_32(IMG[A])`. -/
def runOutb (p : Params) (a : Half) (b : Block) : Except Fault (Block × Word) :=
  attempt p (.outb a) b do
    let v ← b.readByte p a.toNat
    .ok (b, v.setWidth 32)

/-- `OUTB` on the block of `s`. -/
def execOutb (a : Half) (s : State) : Host.Outcome State Fault Refusal :=
  settle s (runOutb s.params a s.toBlock)

end Sys2Proof.Machine
end

