-- ==== Sys2Proof/Machine/Dispatch.lean ====
section
/-! DEFINITION. One arm per command: its meaning. -/

namespace Sys2Proof.Machine

def exec (i : Instr) (s : State) : Host.Outcome State Fault Refusal :=
  match i with
  | .nop => Sys2Proof.Machine.execNop s
  | .fill => Sys2Proof.Machine.execFill s
  | .ldb a b => Sys2Proof.Machine.execLdb a b s
  | .place => Sys2Proof.Machine.execPlace s
  | .suffix => Sys2Proof.Machine.execSuffix s
  | .run => Sys2Proof.Machine.execRun s
  | .outb a => Sys2Proof.Machine.execOutb a s
  | .rdst => Sys2Proof.Machine.execRdst s
  | .ck14clr => Sys2Proof.Machine.execCk14clr s
  | .ck14add a => Sys2Proof.Machine.execCk14add a s
  | .ck14mem a => Sys2Proof.Machine.execCk14mem a s
  | .rdck14 => Sys2Proof.Machine.execRdck14 s
  | .crc32seed => Sys2Proof.Machine.execCrc32seed s
  | .crc32b b => Sys2Proof.Machine.execCrc32b b s
  | .crc32mem a => Sys2Proof.Machine.execCrc32mem a s
  | .rdcrc32 => Sys2Proof.Machine.execRdcrc32 s

end Sys2Proof.Machine
end

