-- ==== Sys2Proof/Machine/Transact.lean ====
section
/-! DEFINITION. The block's step function as R8 and R31 have it: the build and the command word are its inputs, the response is
returned and stored nowhere. -/

namespace Sys2Proof.Machine

/-- A command of the block (R86 steps 4 to 6): the block it leaves and its response. -/
def execute (p : Params) (i : Instr) (b : Block) : Except Fault (Block × Word) :=
  match i with
  | .nop        => runNop p b
  | .fill       => runFill p b
  | .ldb a v    => runLdb p a v b
  | .place      => runPlace p b
  | .suffix     => runSuffix p b
  | .run        => runRun p b
  | .outb a     => runOutb p a b
  | .rdst       => runRdst p b
  | .ck14clr    => runCk14clr p b
  | .ck14add a  => runCk14add p a b
  | .ck14mem a  => runCk14mem p a b
  | .rdck14     => runRdck14 p b
  | .crc32seed  => runCrc32seed p b
  | .crc32b v   => runCrc32b p v b
  | .crc32mem a => runCrc32mem p a b
  | .rdcrc32    => runRdcrc32 p b

/-- A command word (R86): a word that is no command raises `ILLCMD` and responds 0 (steps 2 and 3). -/
def transact (p : Params) (c : Word) (b : Block) : Except Fault (Block × Word) :=
  match decode c with
  | some i => execute p i b
  | none   => .ok (b.raiseIllcmd, 0#32)

end Sys2Proof.Machine
end

