-- ==== Sys2Proof/Machine/Step.lean ====
section
/-! DEFINITION. One step of the block (00_scope.md R8, 30_encoding.md R86): the next event the host presents. -/

namespace Sys2Proof.Machine

/-- One step: the next event of the host. A command word that decodes is executed; one that does not is refused with `ILLCMD` (R86
steps 2 and 3), which `transact` says; the reset event resets (R300). With nothing presented the block idles (log 2). -/
def step (s : State) : Host.Outcome State Fault Refusal :=
  match s.port with
  | [] => .next { s with resp := none }
  | .reset :: rest => .next (s.resetEvent rest)
  | .command c :: rest =>
    match decode c with
    | some i => exec i { s with port := rest }
    | none   => settle { s with port := rest } (transact s.params c s.toBlock)

/-- `s` with the host presenting next the command word whose `nbits` table bits are `w` (log 12). -/
def State.withFetchWord (s : State) (nbits w : Nat) : State :=
  { s with port := .command (BitVec.ofNat 32 (w % 2 ^ nbits)) :: s.port }

end Sys2Proof.Machine
end

