-- ==== Sys2Proof/Machine/Assembler.lean ====
section
/-! DEFINITION. The assembler syntax of the spec (30_encoding.md R96) and its one pseudo-instruction `LDW` (R97). The block knows
nothing of it: a line of text becomes command words for the host to present (log 15). -/

namespace Sys2Proof.Machine

/-! ## Numbers "in C notation (`0x` hexadecimal or decimal)" -/

/-- The value of a digit below `base`. -/
def digitValue (base : Nat) (c : Char) : Option Nat :=
  let n := c.toNat
  let v :=
    if 48 ≤ n ∧ n ≤ 57 then some (n - 48)
    else if 65 ≤ n ∧ n ≤ 70 then some (n - 55)
    else if 97 ≤ n ∧ n ≤ 102 then some (n - 87)
    else none
  v.filter (fun d => decide (d < base))

/-- Digits, most significant first, onto the value `acc` so far. -/
def digitsValue (base : Nat) : List Char → Nat → Option Nat
  | [], acc => some acc
  | c :: cs, acc =>
    match digitValue base c with
    | some d => digitsValue base cs (acc * base + d)
    | none   => none

/-- One number: at least one digit. -/
def parseNumber : List Char → Option Nat
  | '0' :: 'x' :: c :: cs => digitsValue 16 (c :: cs) 0
  | c :: cs => digitsValue 10 (c :: cs) 0
  | [] => none

/-! ## Lines -/

/-- A blank or a tab. -/
def isBlank (c : Char) : Bool := c == ' ' || c == '\t'

/-- The text without blanks at either end. -/
def trim (cs : List Char) : List Char := ((cs.dropWhile isBlank).reverse.dropWhile isBlank).reverse

/-- The pieces between commas. -/
def splitCommas : List Char → List (List Char)
  | [] => [[]]
  | c :: cs =>
    match splitCommas cs with
    | p :: ps => if c = ',' then [] :: p :: ps else (c :: p) :: ps
    | []      => [[c]]

/-- The numbers of a list, if every piece is one. -/
def parseNumbers : List (List Char) → Option (List Nat)
  | [] => some []
  | p :: ps =>
    match parseNumber (trim p), parseNumbers ps with
    | some n, some ns => some (n :: ns)
    | _, _ => none

/-- The operands after a mnemonic: none at all, or numbers separated by commas. -/
def parseOperands (cs : List Char) : Option (List Nat) :=
  if trim cs = [] then some [] else parseNumbers (splitCommas cs)

/-- Operand `A` fits 16 bits. -/
def fits16 (n : Nat) : Option Half := if n < 0x10000 then some (BitVec.ofNat 16 n) else none

/-- Operand `B` fits 8 bits. -/
def fits8 (n : Nat) : Option Byte := if n < 0x100 then some (BitVec.ofNat 8 n) else none

/-- `LDW a, w` (R97): two `LDB`, low byte first; the address must be at most `0xFFFE`. -/
def expandLdw (a w : Half) : Option (List Instr) :=
  if a.toNat ≤ 0xFFFE then some [.ldb a (w.extractLsb' 0 8), .ldb (a + 1#16) (w.extractLsb' 8 8)] else none

/-- The commands of a mnemonic and its operands, `A` then `B` (R96). -/
def assembleCommand (mnemonic : List Char) (ops : List Nat) : Option (List Instr) :=
  match mnemonic, ops with
  | ['N', 'O', 'P'], [] => some [.nop]
  | ['F', 'I', 'L', 'L'], [] => some [.fill]
  | ['L', 'D', 'B'], [a, b] =>
    match fits16 a, fits8 b with
    | some a, some b => some [.ldb a b]
    | _, _ => none
  | ['P', 'L', 'A', 'C', 'E'], [] => some [.place]
  | ['S', 'U', 'F', 'F', 'I', 'X'], [] => some [.suffix]
  | ['R', 'U', 'N'], [] => some [.run]
  | ['O', 'U', 'T', 'B'], [a] => (fits16 a).map (fun a => [.outb a])
  | ['R', 'D', 'S', 'T'], [] => some [.rdst]
  | ['C', 'K', '1', '4', 'C', 'L', 'R'], [] => some [.ck14clr]
  | ['C', 'K', '1', '4', 'A', 'D', 'D'], [a] => (fits16 a).map (fun a => [.ck14add a])
  | ['C', 'K', '1', '4', 'M', 'E', 'M'], [a] => (fits16 a).map (fun a => [.ck14mem a])
  | ['R', 'D', 'C', 'K', '1', '4'], [] => some [.rdck14]
  | ['C', 'R', 'C', '3', '2', 'S', 'E', 'E', 'D'], [] => some [.crc32seed]
  | ['C', 'R', 'C', '3', '2', 'B'], [b] => (fits8 b).map (fun b => [.crc32b b])
  | ['C', 'R', 'C', '3', '2', 'M', 'E', 'M'], [a] => (fits16 a).map (fun a => [.crc32mem a])
  | ['R', 'D', 'C', 'R', 'C', '3', '2'], [] => some [.rdcrc32]
  | ['L', 'D', 'W'], [a, w] =>
    match fits16 a, fits16 w with
    | some a, some w => expandLdw a w
    | _, _ => none
  | _, _ => none

/-- One line (R96): a command, or nothing but blanks; `;` starts a comment. -/
def assembleLine (line : List Char) : Option (List Instr) :=
  let text := trim (line.takeWhile (fun c => c != ';'))
  if text = [] then some []
  else
    let mnemonic := text.takeWhile (fun c => !isBlank c)
    match parseOperands (text.drop mnemonic.length) with
    | some ops => assembleCommand mnemonic ops
    | none     => none

/-- The command words of a program's lines. -/
def assemble : List (List Char) → Option (List Word)
  | [] => some []
  | l :: ls =>
    match assembleLine l, assemble ls with
    | some is, some ws => some (is.map encode ++ ws)
    | _, _ => none

end Sys2Proof.Machine
end

