-- ==== Sys2Proof/Safety.lean ====
section
/-! DEFINITION. What the claims are stated in: the words and bytes a command ranges over, the invariants of the block
(10_state.md R34), and sequences of commands. -/

namespace Sys2Proof.Machine

/-! ## The legal-phase table and the legal operand values, as the spec's tables have them -/

/-- The `y` entries of the legal-phase table (R264). -/
def PhaseLegal : Instr → Phase → Prop
  | .fill, p => p = .rst
  | .ldb _ _, p | .place, p | .run, p => p = .load
  | .suffix, p => p = .placed
  | .outb _, p => p = .done
  | .ck14mem _, p | .crc32mem _, p => p = .load ∨ p = .placed ∨ p = .done ∨ p = .fail
  | .nop, _ | .rdst, _ | .ck14clr, _ | .ck14add _, _ | .rdck14, _ | .crc32seed, _ | .crc32b _, _ | .rdcrc32, _ => True

/-- The operand values that are not illegal (R88 list b). -/
def OperandLegal (p : Params) : Instr → Prop
  | .outb a | .crc32mem a => a.toNat < p.imgLen
  | .ck14mem a => a.toNat % 2 = 0 ∧ a.toNat + 1 < p.imgLen
  | _ => True

/-! ## Encodings (R80, R81, R87) -/

/-- Format `Z`: the opcode and 24 zero bits is the command, and no other word with that opcode is a command. -/
def EncodedZ (op : Byte) (i : Instr) : Prop :=
  decode (op ++ 0#16 ++ 0#8) = some i ∧
  ∀ (a : Half) (b : Byte), a ≠ 0#16 ∨ b ≠ 0#8 → decode (op ++ a ++ b) = none

/-- Format `A`: the opcode, any operand `A` and 8 zero bits is the command, and no other word with that opcode is a command. -/
def EncodedA (op : Byte) (mk : Half → Instr) : Prop :=
  (∀ a : Half, decode (op ++ a ++ 0#8) = some (mk a)) ∧
  ∀ (a : Half) (b : Byte), b ≠ 0#8 → decode (op ++ a ++ b) = none

/-- Format `B`: the opcode, 16 zero bits and any operand `B` is the command, and no other word with that opcode is a command. -/
def EncodedB (op : Byte) (mk : Byte → Instr) : Prop :=
  (∀ b : Byte, decode (op ++ 0#16 ++ b) = some (mk b)) ∧
  ∀ (a : Half) (b : Byte), a ≠ 0#16 → decode (op ++ a ++ b) = none

/-- Format `AB`: the opcode with any operands is the command. -/
def EncodedAB (op : Byte) (mk : Half → Byte → Instr) : Prop :=
  ∀ (a : Half) (b : Byte), decode (op ++ a ++ b) = some (mk a b)

/-! ## Ranges of the image -/

/-- `word(a)` (R56): `IMG[a+1] ++ IMG[a]`. -/
def Memory.word (m : Memory) (a : Nat) : Half := wordOfBytes (m.read a) (m.read (a + 1))

/-- The words fed by the scan (R172): `word(0x0400), word(0x0402), ..., word(0x3EFC)`. -/
def Memory.windowWords (m : Memory) : List Half := (List.range 7551).map fun k => m.word (0x0400 + 2 * k)

/-- The window's checksum (R172): `ck14_seq(0, [word(0x0400), ..., word(0x3EFC)])`. -/
@[irreducible] def windowSum (v : Ck14Variant) (m : Memory) : Acc14 := ck14Seq v 0#14 m.windowWords

/-- `IMG[0 .. n-1]`. -/
def Memory.prefixBytes (m : Memory) (n : Nat) : List Byte := (List.range n).map fun a => m.read a

/-- The CRC-32 of `IMG[0 .. n-1]` from the seed `0xFFFFFFFF` (R132, R192). -/
@[irreducible] def prefixCrc (m : Memory) (n : Nat) : Word := crc32Bytes 0xFFFFFFFF#32 (m.prefixBytes n)

/-- The slot holds the erased pair (R173). -/
def Memory.slotErased (m : Memory) : Prop := m.read 0x3EFE = 0xFF#8 ∧ m.read 0x3EFF = 0x3F#8

/-- The header of R191 stands at offset `base`. -/
def Memory.HeaderAt (m : Memory) (base : Nat) (p : Params) : Prop :=
  m.read base = 0xFF#8 ∧ m.read (base + 1) = 0xFF#8 ∧
  m.read (base + 2) = p.usbPid.extractLsb' 0 8 ∧ m.read (base + 3) = p.usbPid.extractLsb' 8 8 ∧
  m.read (base + 4) = p.usbVid.extractLsb' 0 8 ∧ m.read (base + 5) = p.usbVid.extractLsb' 8 8 ∧
  m.read (base + 6) = 0x00#8 ∧ m.read (base + 7) = 0x01#8 ∧
  m.read (base + 8) = 0x55#8 ∧ m.read (base + 9) = 0x46#8 ∧ m.read (base + 10) = 0x44#8 ∧
  m.read (base + 11) = 0x10#8

/-- `MemWrite(base, 4, c)` was done at offset `base` (R193): `c` stands there, low byte first. -/
def Memory.Word32At (m : Memory) (base : Nat) (c : Word) : Prop :=
  m.read base = c.extractLsb' 0 8 ∧ m.read (base + 1) = c.extractLsb' 8 8 ∧
  m.read (base + 2) = c.extractLsb' 16 8 ∧ m.read (base + 3) = c.extractLsb' 24 8

/-! ## Invariants (R34) -/

/-- The invariants of the block. R34 item 1 holds by the type of `PH` (log 13) and item 5 by `State.memRead` (log 8). -/
structure Inv (s : State) : Prop where
  /-- The image keeps its canonical form and holds no offset past `IMG_LEN` (R25, R52). -/
  canonical : s.img.wf s.params.imgLen = true
  /-- R34 item 2. -/
  conflictFails : s.conflict = true → s.ph = .fail
  /-- R34 item 3. -/
  failHasCause : s.ph = .fail → s.oob = true ∨ s.conflict = true
  /-- R34 item 4. -/
  successIsClear : s.ph = .placed ∨ s.ph = .done → s.oob = false ∧ s.conflict = false
  /-- R34 item 6. -/
  outsideWindowErased : s.ph = .load → ∀ a, a < s.params.imgLen → (a < 0x0400 ∨ 0x8000 ≤ a) → s.img.read a = fillByte a
  /-- R34 item 7. -/
  slotHighBits : s.ph = .placed ∨ s.ph = .done → (s.img.read 0x3EFF).extractLsb' 6 2 = 0#2
  /-- R34 item 8. -/
  suffixStands : s.ph = .done → s.img.HeaderAt s.params.pmSize s.params ∧
    s.img.Word32At (s.params.pmSize + 12) (prefixCrc s.img (s.params.pmSize + 12))
  /-- R268: `OOB` and `CONFLICT` are never both 1. -/
  notBoth : ¬(s.oob = true ∧ s.conflict = true)
  /-- R151: in `RST` both flags are 0. -/
  resetIsClear : s.ph = .rst → s.oob = false ∧ s.conflict = false

/-! ## Sequences of commands -/

/-- The commands of a list in order, stopping at the first that does not answer a next state. -/
def execAll : List Instr → State → Host.Outcome State Fault Refusal
  | [], s => .next s
  | i :: is, s =>
    match exec i s with
    | .next t    => execAll is t
    | .fault f   => .fault f
    | .refused r => .refused r

end Sys2Proof.Machine
end

