-- ==== Sys2Proof/Certificates/Slice0/Obligations.lean ====
section
/-! DEFINITION. The statements for the provers, from the numbered rules of spec/. "log <n>" is notes/assumptions/<n>.md. -/

open Sys2Proof Sys2Proof.Machine

/-! ## Encoding (30_encoding.md) -/

/-- Decoding the encoding of any command, at every operand value, gives the command back (30_encoding.md R80 to R86, R96). -/
def Obligations.DecodeInvertsEncode : Prop :=
  ∀ i : Instr, decode (encode i) = some i

/-- Every legal word has one meaning: encoding what it decodes to gives the word back ("no encoding that executes as a different
named command", 30_encoding.md section Part A). -/
def Obligations.EncodeInvertsDecode : Prop :=
  ∀ (c : Word) (i : Instr), decode c = some i → encode i = c

/-- R81, R87: the decoder accepts a word exactly when it matches a row of the opcode map under that row's format mask, and the
encoding of every command matches one. -/
def Obligations.DecoderAcceptsExactlyTheRows : Prop :=
  (∀ c : Word, (decode c).isSome = true ↔ ∃ r ∈ rows, c &&& r.format.mask = r.pattern) ∧
  ∀ i : Instr, ∃ r ∈ rows, encode i &&& r.format.mask = r.pattern

/-- The sixteen rows do not overlap: a word matches at most one (opcode_table.json; 30_encoding.md section Part A). -/
def Obligations.OpcodeRowsDoNotOverlap : Prop :=
  ∀ (c : Word) (r q : Row), r ∈ rows → q ∈ rows → c &&& r.format.mask = r.pattern → c &&& q.format.mask = q.pattern → r = q

/-- The words the spec writes out beside its assembler lines decode to the commands they stand for (R96's listing and
95_test_vectors.md P1), and the lines assemble to them. -/
def Obligations.ExampleWordsDecode : Prop :=
  decode 0x02040000#32 = some (.ldb 0x0400#16 0x00#8) ∧ decode 0x063EFE00#32 = some (.outb 0x3EFE#16) ∧
  decode 0x113FFF00#32 = some (.ck14add 0x3FFF#16) ∧ decode 0x12040000#32 = some (.ck14mem 0x0400#16) ∧
  decode 0x21000031#32 = some (.crc32b 0x31#8) ∧ decode 0x22000000#32 = some (.crc32mem 0x0000#16) ∧
  decode 0x05000000#32 = some .run ∧ decode 0x13000000#32 = some .rdck14 ∧ decode 0x23000000#32 = some .rdcrc32 ∧
  decode 0x01000001#32 = none ∧ decode 0x08000000#32 = none ∧ decode 0x06000001#32 = none ∧
  assemble ["LDB     0x0400, 0x00".toList, "OUTB    0x3EFE".toList, "CRC32B  0x31".toList] =
    some [0x02040000#32, 0x063EFE00#32, 0x21000031#32]

/-- R97: `LDW a, w` is `LDB a, w[7:0]` then `LDB a+1, w[15:8]`, for addresses up to `0xFFFE`, and no other address. Executed in phase
`LOAD` inside the window the two loads leave the word `w` at `a`, low byte first, and nothing else changed. -/
def Obligations.LdwLoadsALittleEndianWord : Prop :=
  (∀ a w : Half, expandLdw a w =
    if a.toNat ≤ 0xFFFE then some [.ldb a (w.extractLsb' 0 8), .ldb (BitVec.ofNat 16 (a.toNat + 1)) (w.extractLsb' 8 8)] else none) ∧
  ∀ (a w : Half) (s : State) (is : List Instr), expandLdw a w = some is → s.ph = .load → 0x0400 ≤ a.toNat → a.toNat + 1 < 0x8000 →
    ∃ t, execAll is s = .next t ∧ t.img.word a.toNat = w ∧
      (∀ x, x ≠ a.toNat → x ≠ a.toNat + 1 → t.img.read x = s.img.read x) ∧ t = { s with img := t.img, resp := some 0#32 }

/-! ## Steps -/

/-- A step whose next host event is a legal command word executes that command, the event taken from the host's list and nothing
else changed before it (R8, R86; the list is the model's own, log 1). -/
def Obligations.StepExecutesTheDecodedCommand : Prop :=
  ∀ (s : State) (c : Word) (rest : List HostEvent) (i : Instr), s.port = .command c :: rest → decode c = some i →
    step s = exec i { s with port := rest }

/-- R300: the reset event sets every register to its reset value. The last clause is the MODEL's form of "it makes every byte of `IMG`
unspecified": no byte of the image has a value, so that a read of it answers a fault (log 8, log 9, DESIGN CHOICE). -/
def Obligations.ResetEventResetsEverything : Prop :=
  ∀ (s : State) (rest : List HostEvent), s.port = .reset :: rest →
    ∃ t, step s = .next t ∧ t.ph = .rst ∧ t.oob = false ∧ t.conflict = false ∧ t.seqerr = false ∧ t.illcmd = false ∧
      t.s14 = 0x0000#14 ∧ t.c32 = 0xFFFFFFFF#32 ∧ ∀ a n, t.memRead a n = .error .undefinedImage

/-- R33: the registers after reset and their `STATUS` view (a row the spec derives from the others). That no byte of the image has a
value, so that a read of it answers a fault, is the MODEL's form of "unspecified" (log 8, log 9, DESIGN CHOICE; R33 permits "no
value"). No command can read the image while `PH = RST`: whatever its representation then holds, a command leaves the same in
everything else. -/
def Obligations.ResetStateHoldsTheSpecsValues : Prop :=
  (State.reset.ph = .rst ∧ State.reset.oob = false ∧ State.reset.conflict = false ∧ State.reset.seqerr = false ∧
    State.reset.illcmd = false ∧ State.reset.s14 = 0x0000#14 ∧ State.reset.c32 = 0xFFFFFFFF#32 ∧
    State.reset.status = 0x00000000#32 ∧ ∀ a n, State.reset.memRead a n = .error .undefinedImage) ∧
  ∀ (i : Instr) (s : State) (m : Memory), s.ph = .rst →
    ∃ t u, exec i s = .next t ∧ exec i { s with img := m } = .next u ∧ { t with img := [] } = { u with img := [] }

/-- The MODEL's choice (log 2): with nothing presented a step changes nothing but that no response stands. -/
def Obligations.IdlePortChangesNothing : Prop :=
  ∀ s : State, s.port = [] → step s = .next { s with resp := none }

/-- From every state a step answers a next state: the block never stops (R8, R52, R266; the idle step is the model's, log 2, and so
are the faults that never occur, log 9). -/
def Obligations.EveryStepAnswersANextState : Prop :=
  ∀ s : State, ∃ t, step s = .next t

/-- R85: every command answers one response: the value of the table for an accepted `OUTB`, `RDST`, `RDCK14`, `RDCRC32`; 0 for every
other command, for every refused command, and for every illegal word. -/
def Obligations.EveryCommandRespondsAsTheTableSays : Prop :=
  (∀ (i : Instr) (s : State), ∃ t, exec i s = .next t ∧
    ((PhaseLegal i s.ph ∧ OperandLegal s.params i) → t.resp = some (match i with
      | .outb a => (s.img.read a.toNat).setWidth 32
      | .rdst => s.status
      | .rdck14 => s.s14.setWidth 32
      | .rdcrc32 => s.c32
      | _ => 0#32)) ∧
    (¬(PhaseLegal i s.ph ∧ OperandLegal s.params i) → t.resp = some 0#32)) ∧
  ∀ (s : State) (c : Word) (rest : List HostEvent), s.port = .command c :: rest → decode c = none →
    ∃ t, step s = .next t ∧ t.resp = some 0#32

/-! ## Refusals (60_exceptions.md) -/

/-- R264: a command is refused with `SEQERR` exactly in the phases the table marks `-`: the bit, response 0 and nothing else. -/
def Obligations.OutOfPhaseCommandsAreRefused : Prop :=
  (∀ (i : Instr) (s : State), ¬PhaseLegal i s.ph → exec i s = .next { s with seqerr := true, resp := some 0#32 }) ∧
  ∀ (i : Instr) (s : State), PhaseLegal i s.ph → ∃ t, exec i s = .next t ∧ t.seqerr = s.seqerr

/-- R88: the illegal encodings, all of which raise `ILLCMD` and do nothing else: (a) by spelling, the words that match no row, in
every phase; (b) by value, after the phase test has passed. `LDB` has no illegal address. -/
def Obligations.IllegalEncodingsRaiseIllcmd : Prop :=
  (∀ (s : State) (c : Word) (rest : List HostEvent), s.port = .command c :: rest →
    (¬∃ r ∈ rows, c &&& r.format.mask = r.pattern) →
    step s = .next { s with port := rest, illcmd := true, resp := some 0#32 }) ∧
  (∀ (s : State) (a : Half), s.ph = .done → s.params.imgLen ≤ a.toNat →
    exec (.outb a) s = .next { s with illcmd := true, resp := some 0#32 }) ∧
  (∀ (s : State) (a : Half), s.ph ≠ .rst → s.params.imgLen ≤ a.toNat →
    exec (.crc32mem a) s = .next { s with illcmd := true, resp := some 0#32 }) ∧
  (∀ (s : State) (a : Half), s.ph ≠ .rst → (a.toNat % 2 = 1 ∨ s.params.imgLen ≤ a.toNat + 1) →
    exec (.ck14mem a) s = .next { s with illcmd := true, resp := some 0#32 }) ∧
  ∀ (s : State) (a : Half) (b : Byte), ∃ t, exec (.ldb a b) s = .next t ∧ t.illcmd = s.illcmd

/-- R268: at most one error condition is raised by a command word; a command out of phase raises `SEQERR` whatever its operand; an
illegal word raises `ILLCMD` in every phase; `PLACE` and `RUN` examine `OOB` before the slot, and the slot after the scan; `OOB` and
`CONFLICT` are never both 1 (from the states of R34, and on). -/
def Obligations.AtMostOneErrorPerCommand : Prop :=
  (∀ (s t : State) (c : Word) (rest : List HostEvent), s.port = .command c :: rest → step s = .next t →
    [s.oob != t.oob, s.conflict != t.conflict, s.seqerr != t.seqerr, s.illcmd != t.illcmd].count true ≤ 1) ∧
  (∀ (i : Instr) (s : State), ¬PhaseLegal i s.ph → ¬OperandLegal s.params i →
    ∃ t, exec i s = .next t ∧ t.seqerr = true ∧ t.illcmd = s.illcmd) ∧
  (∀ (s : State) (c : Word) (rest : List HostEvent), s.port = .command c :: rest → decode c = none →
    ∃ t, step s = .next t ∧ t.illcmd = true ∧ t.seqerr = s.seqerr) ∧
  (∀ s : State, s.ph = .load → s.oob = true → ¬s.img.slotErased →
    (∃ t, exec .place s = .next t ∧ t.ph = .fail ∧ t.conflict = s.conflict) ∧
    ∃ t, exec .run s = .next t ∧ t.ph = .fail ∧ t.conflict = s.conflict) ∧
  (∀ s : State, s.ph = .load → s.oob = false → ¬s.img.slotErased →
    (∃ t, exec .place s = .next t ∧ t.conflict = true ∧ t.s14 = windowSum s.params.ck14 s.img) ∧
    ∃ t, exec .run s = .next t ∧ t.conflict = true ∧ t.s14 = windowSum s.params.ck14 s.img) ∧
  ∀ s t : State, Inv s → step s = .next t → ¬(t.oob = true ∧ t.conflict = true)

/-! ## The image and the status (42_image_load.md) -/

/-- R150: `NOP` changes no state in any phase, and only the all-zero word with its opcode is `NOP`. -/
def Obligations.NopDoesNothing : Prop :=
  (∀ s : State, exec .nop s = .next { s with resp := some 0#32 }) ∧ EncodedZ 0x00#8 .nop

/-- R151: `FILL` in `RST` gives every byte of the image its erased value and opens phase `LOAD`, changing nothing else; in any other
phase it is refused with `SEQERR`. -/
def Obligations.FillErasesTheImage : Prop :=
  (∀ s : State, s.ph = .rst → ∃ t, exec .fill s = .next t ∧
    (∀ a, a < s.params.imgLen → t.memRead a 1 = .ok [if a % 2 = 0 then 0xFF#8 else 0x3F#8]) ∧
    t = { s with img := t.img, ph := .load, resp := some 0#32 }) ∧
  (∀ s : State, s.ph ≠ .rst → exec .fill s = .next { s with seqerr := true, resp := some 0#32 }) ∧
  EncodedZ 0x01#8 .fill

/-- R153: `LDB` inside the window, in phase `LOAD`, writes exactly one byte: that byte reads as the operand, every other byte as before,
and no flag, accumulator or phase changes. -/
def Obligations.LoadInsideTheWindowWritesOneByte : Prop :=
  ∀ (s : State) (a : Half) (b : Byte), s.ph = .load → 0x0400 ≤ a.toNat → a.toNat < 0x8000 →
    ∃ t, exec (.ldb a b) s = .next t ∧ t.img.read a.toNat = b ∧ (∀ x, x ≠ a.toNat → t.img.read x = s.img.read x) ∧
      t = { s with img := t.img, resp := some 0#32 }

/-- R154: `LDB` outside the window, in phase `LOAD`, writes no byte and sets `OOB`, and the next `PLACE` or `RUN` fails the
conversion. -/
def Obligations.LoadOutsideTheWindowSetsOob : Prop :=
  ∀ (s : State) (a : Half) (b : Byte), s.ph = .load → (a.toNat < 0x0400 ∨ 0x8000 ≤ a.toNat) →
    exec (.ldb a b) s = .next { s with oob := true, resp := some 0#32 } ∧
    (∃ t, execAll [.ldb a b, .place] s = .next t ∧ t.ph = .fail ∧ t.oob = true) ∧
    ∃ t, execAll [.ldb a b, .run] s = .next t ∧ t.ph = .fail ∧ t.oob = true

/-- R152: `LDB` is legal only in phase `LOAD`, every word with its opcode is an `LDB`, and which of R153 and R154 happens is the window
test `WIN_LO <= A < WIN_HI`. -/
def Obligations.LoadByteTestsPhaseThenWindow : Prop :=
  EncodedAB 0x02#8 Instr.ldb ∧
  (∀ (s : State) (a : Half) (b : Byte), s.ph ≠ .load → exec (.ldb a b) s = .next { s with seqerr := true, resp := some 0#32 }) ∧
  ∀ (s : State) (a : Half) (b : Byte), s.ph = .load → ∃ t, exec (.ldb a b) s = .next t ∧ t.resp = some 0#32 ∧
    if 0x0400 ≤ a.toNat ∧ a.toNat < 0x8000 then t.oob = s.oob ∧ t.img.read a.toNat = b
    else t.oob = true ∧ t.img = s.img

/-- A byte loaded in any order of loads: after `FILL` and any loads inside the window every byte reads as the last byte loaded at its
address, or as erased if none was (42_image_load.md section on R153, the source's first property S1; 20_memory.md section 4). -/
def Obligations.LoadedImageHoldsTheLastBytes : Prop :=
  ∀ (s : State) (loads : List (Half × Byte)), s.ph = .rst → (∀ l ∈ loads, 0x0400 ≤ l.1.toNat ∧ l.1.toNat < 0x8000) →
    ∃ t, execAll (.fill :: loads.map (fun l => .ldb l.1 l.2)) s = .next t ∧
      (∀ a, a < s.params.imgLen → t.img.read a =
        match loads.reverse.find? (fun l => l.1.toNat == a) with
        | some l => l.2
        | none   => if a % 2 = 0 then 0xFF#8 else 0x3F#8) ∧
      t = { s with img := t.img, ph := .load, resp := some 0#32 }

/-- R95, R155: `RDST` returns the status word, field by field, and changes nothing. -/
def Obligations.StatusWordShowsPhaseAndFlags : Prop :=
  (∀ s : State, ∃ w : Word, exec .rdst s = .next { s with resp := some w } ∧
    w.extractLsb' 0 3 = (match s.ph with
      | .rst => 0#3 | .load => 1#3 | .placed => 2#3 | .done => 3#3 | .fail => 4#3) ∧
    w.getLsbD 3 = false ∧ w.getLsbD 4 = s.oob ∧ w.getLsbD 5 = s.conflict ∧ w.getLsbD 6 = s.seqerr ∧
    w.getLsbD 7 = s.illcmd ∧ w.getLsbD 8 = decide (s.ph = .done) ∧ w.extractLsb' 9 23 = 0#23) ∧
  EncodedZ 0x07#8 .rdst

/-! ## Checksum placement (43_checksum_placement.md) -/

/-- R171: with `OOB` set `PLACE` sets `PH <- FAIL` and does nothing else. -/
def Obligations.PlaceFailsWhenOutOfBounds : Prop :=
  ∀ s : State, s.ph = .load → s.oob = true → exec .place s = .next { s with ph := .fail, resp := some 0#32 }

/-- R173: with the slot not erased `PLACE` leaves the window's checksum in `S14`, sets `CONFLICT` and fails the conversion; the
image is as before. -/
def Obligations.PlaceDetectsAConflict : Prop :=
  ∀ s : State, s.ph = .load → s.oob = false → ¬(s.img.read 0x3EFE = 0xFF#8 ∧ s.img.read 0x3EFF = 0x3F#8) →
    exec .place s = .next { s with
      s14 := ck14Seq s.params.ck14 0#14 ((List.range 7551).map fun k => s.img.word (0x0400 + 2 * k))
      conflict := true, ph := .fail, resp := some 0#32 }

/-- R174: with the slot erased `PLACE` stores the window's checksum in the slot, low byte then high byte, bits 7:6 of the high
byte 0, every other byte as before; and from then on no command changes a byte of program memory. -/
def Obligations.PlaceStoresTheChecksum : Prop :=
  (∀ s : State, s.ph = .load → s.oob = false → s.img.read 0x3EFE = 0xFF#8 → s.img.read 0x3EFF = 0x3F#8 →
    ∃ t, exec .place s = .next t ∧
      t.s14 = ck14Seq s.params.ck14 0#14 ((List.range 7551).map fun k => s.img.word (0x0400 + 2 * k)) ∧
      t.img.read 0x3EFE = t.s14.extractLsb' 0 8 ∧ t.img.read 0x3EFF = 0#2 ++ t.s14.extractLsb' 8 6 ∧
      (∀ a, a ≠ 0x3EFE → a ≠ 0x3EFF → t.img.read a = s.img.read a) ∧
      t = { s with img := t.img, s14 := t.s14, ph := .placed, resp := some 0#32 }) ∧
  ∀ (s : State) (i : Instr), s.ph = .placed ∨ s.ph = .done ∨ s.ph = .fail →
    ∃ t, exec i s = .next t ∧ ∀ a, a < s.params.pmSize → t.img.read a = s.img.read a

/-- R172: the scan of `PLACE`: 7551 words from `0x0400` to `0x3EFC`, each low byte first, in ascending order, from seed 0, whatever the
slot holds; bytes outside `[0x0400, 0x3EFE)`, and the value of `S14` before, have no influence on the result. -/
def Obligations.PlaceSumsTheWindow : Prop :=
  (∀ s : State, s.ph = .load → s.oob = false → ∃ t, exec .place s = .next t ∧
    t.s14 = ck14Seq s.params.ck14 0#14
      ((List.range 7551).map fun k => s.img.read (0x0400 + 2 * k + 1) ++ s.img.read (0x0400 + 2 * k))) ∧
  ∀ s u : State, s.ph = .load → u.ph = .load → s.oob = false → u.oob = false → s.params.ck14 = u.params.ck14 →
    (∀ a, 0x0400 ≤ a → a < 0x3EFE → s.img.read a = u.img.read a) →
    ∃ t v, exec .place s = .next t ∧ exec .place u = .next v ∧ t.s14 = v.s14

/-! ## Suffix, run, output (44_dfu_suffix.md) -/

/-- R190, R191, R192, R193: `SUFFIX` in `PLACED` writes the header, then the CRC-32 of everything before the CRC field, seeded with
`0xFFFFFFFF`, little-endian behind it; `C32` keeps it; `PH <- DONE`; program memory and every other register are as before. In any
other phase it is refused with `SEQERR`. -/
def Obligations.SuffixWritesHeaderAndCrc : Prop :=
  (∀ s : State, s.ph = .placed → ∃ t, exec .suffix s = .next t ∧
    t.img.HeaderAt s.params.pmSize s.params ∧
    t.c32 = crc32Bytes 0xFFFFFFFF#32 ((List.range (s.params.pmSize + 12)).map fun a => t.img.read a) ∧
    t.img.Word32At (s.params.pmSize + 12) t.c32 ∧
    (∀ a, a < s.params.pmSize ∨ s.params.pmSize + 16 ≤ a → t.img.read a = s.img.read a) ∧
    t = { s with img := t.img, c32 := t.c32, ph := .done, resp := some 0#32 }) ∧
  (∀ s : State, s.ph ≠ .placed → exec .suffix s = .next { s with seqerr := true, resp := some 0#32 }) ∧
  EncodedZ 0x04#8 .suffix

/-- R194: `RUN` has exactly the effect of `PLACE` followed, when that leaves `PH = PLACED`, by `SUFFIX`; in any phase but `LOAD` it is
refused with `SEQERR`. -/
def Obligations.RunIsPlaceThenSuffix : Prop :=
  (∀ s : State, s.ph = .load → ∃ t, exec .place s = .next t ∧
    exec .run s = if t.ph = .placed then exec .suffix t else .next t) ∧
  (∀ s : State, s.ph ≠ .load → exec .run s = .next { s with seqerr := true, resp := some 0#32 }) ∧
  EncodedZ 0x05#8 .run

/-- What `RUN` leaves (44_dfu_suffix.md section 3, end states): `DONE` with the checksum in the slot and the suffix behind the image;
or `FAIL` with `OOB` and nothing else changed; or `FAIL` with `CONFLICT`, the image and `C32` unchanged. -/
def Obligations.RunEndStates : Prop :=
  ∀ s : State, s.ph = .load →
    (s.oob = true → exec .run s = .next { s with ph := .fail, resp := some 0#32 }) ∧
    (s.oob = false → ¬s.img.slotErased →
      exec .run s = .next { s with s14 := windowSum s.params.ck14 s.img, conflict := true, ph := .fail, resp := some 0#32 }) ∧
    (s.oob = false → s.img.slotErased → ∃ t, exec .run s = .next t ∧
      t.s14 = windowSum s.params.ck14 s.img ∧ t.c32 = prefixCrc t.img (s.params.pmSize + 12) ∧
      t.img.read 0x3EFE = t.s14.extractLsb' 0 8 ∧ t.img.read 0x3EFF = 0#2 ++ t.s14.extractLsb' 8 6 ∧
      t.img.HeaderAt s.params.pmSize s.params ∧ t.img.Word32At (s.params.pmSize + 12) t.c32 ∧
      (∀ a, a ≠ 0x3EFE → a ≠ 0x3EFF → (a < s.params.pmSize ∨ s.params.pmSize + 16 ≤ a) → t.img.read a = s.img.read a) ∧
      t = { s with img := t.img, s14 := t.s14, c32 := t.c32, ph := .done, resp := some 0#32 })

/-- R195: `OUTB` in `DONE` returns the byte at its offset and changes no state; elsewhere `SEQERR`; past the end `ILLCMD`. -/
def Obligations.OutbReturnsOneByte : Prop :=
  (∀ (s : State) (a : Half), s.ph = .done → a.toNat < s.params.imgLen →
    exec (.outb a) s = .next { s with resp := some ((s.img.read a.toNat).setWidth 32) }) ∧
  (∀ (s : State) (a : Half), s.ph ≠ .done → exec (.outb a) s = .next { s with seqerr := true, resp := some 0#32 }) ∧
  (∀ (s : State) (a : Half), s.ph = .done → s.params.imgLen ≤ a.toNat →
    exec (.outb a) s = .next { s with illcmd := true, resp := some 0#32 }) ∧
  EncodedA 0x06#8 Instr.outb

/-- R196: in `DONE` the whole image can be output, offset by offset, and stays as it is; in every other phase not one byte leaves by
`OUTB`; `OUT_VALID` tells which case holds. -/
def Obligations.OutputOnlyWhenDone : Prop :=
  (∀ (s : State) (k : Nat), s.ph = .done → k < s.params.imgLen → ∃ t, exec (.outb (BitVec.ofNat 16 k)) s = .next t ∧
    t.resp = some ((s.img.read k).setWidth 32) ∧ t.img = s.img ∧ t.ph = .done) ∧
  (∀ (s : State) (a : Half), s.ph ≠ .done → ∃ t, exec (.outb a) s = .next t ∧ t.resp = some 0#32) ∧
  ∀ s : State, s.status.getLsbD 8 = true ↔ s.ph = .done

/-- R197: the output of a conversion depends on the parameters, the image's bytes and `OOB` only, not on the accumulators, the sticky
bits, the host's list or the last response. -/
def Obligations.ConversionIsDeterministic : Prop :=
  ∀ s u : State, s.ph = .load → u.ph = .load → s.params = u.params → s.oob = u.oob → s.conflict = u.conflict →
    (∀ a, a < s.params.imgLen → s.img.read a = u.img.read a) →
    ∃ t v, exec .run s = .next t ∧ exec .run u = .next v ∧ t.ph = v.ph ∧ t.conflict = v.conflict ∧
      ∀ a, a < s.params.imgLen → t.img.read a = v.img.read a

/-! ## The CK14 engine (40_ck14_engine.md) -/

/-- R114: `CK14CLR` seeds the accumulator with 0, in every phase, and changes nothing else. -/
def Obligations.Ck14ClearSeedsTheAccumulator : Prop :=
  (∀ s : State, exec .ck14clr s = .next { s with s14 := 0x0000#14, resp := some 0#32 }) ∧ EncodedZ 0x10#8 .ck14clr

/-- R115: `CK14ADD` folds its 16-bit operand into the accumulator, in every phase, and changes nothing else. -/
def Obligations.Ck14AddFoldsTheOperand : Prop :=
  (∀ (s : State) (a : Half), exec (.ck14add a) s = .next { s with s14 := ck14Word s.params.ck14 s.s14 a, resp := some 0#32 }) ∧
  EncodedA 0x11#8 Instr.ck14add

/-- R116: `CK14MEM` folds the little-endian word at its even offset into the accumulator and changes nothing else; refused with
`SEQERR` in `RST`, with `ILLCMD` at an odd offset or past the end. -/
def Obligations.Ck14MemFoldsTheImageWord : Prop :=
  (∀ (s : State) (a : Half), s.ph ≠ .rst → a.toNat % 2 = 0 → a.toNat + 1 < s.params.imgLen →
    exec (.ck14mem a) s = .next { s with
      s14 := ck14Word s.params.ck14 s.s14 (s.img.read (a.toNat + 1) ++ s.img.read a.toNat), resp := some 0#32 }) ∧
  (∀ (s : State) (a : Half), s.ph = .rst → exec (.ck14mem a) s = .next { s with seqerr := true, resp := some 0#32 }) ∧
  (∀ (s : State) (a : Half), s.ph ≠ .rst → (a.toNat % 2 = 1 ∨ s.params.imgLen ≤ a.toNat + 1) →
    exec (.ck14mem a) s = .next { s with illcmd := true, resp := some 0#32 }) ∧
  EncodedA 0x12#8 Instr.ck14mem

/-- R117: `RDCK14` returns the accumulator, zero-extended, in every phase, and changes nothing. -/
def Obligations.ReadCk14ReturnsTheAccumulator : Prop :=
  (∀ s : State, exec .rdck14 s = .next { s with resp := some (BitVec.ofNat 32 s.s14.toNat) }) ∧ EncodedZ 0x13#8 .rdck14

/-- R110, R111: one bit step of `V1` as arithmetic modulo 2^14, a word as sixteen of them, most significant bit first, and a sequence
of words folded in order. -/
def Obligations.Ck14WordIsSixteenBitSteps : Prop :=
  (∀ (x : Acc14) (b : Bool), (ck14BitV1 x b).toNat =
    if 2 * x.toNat + b.toNat < 2 ^ 14 then 2 * x.toNat + b.toNat else (2 * x.toNat + b.toNat - 2 ^ 14) ^^^ 0x23B1) ∧
  (∀ (x : Acc14) (w : Half), ck14Word .v1 x w = (List.range 16).foldl (fun s k => ck14BitV1 s (w.getLsbD (15 - k))) x) ∧
  ∀ (v : Ck14Variant) (x : Acc14) (ws us : List Half), ck14Seq v x [] = x ∧
    ck14Seq v x (ws ++ us) = ck14Seq v (ck14Seq v x ws) us ∧ ∀ w, ck14Seq v x [w] = ck14Word v x w

/-- Every admissible instance of `CK14_VARIANT` is linear over GF(2) (40_ck14_engine.md section 2, R112 (c), which the spec derives for
`V1`, `V2` and `V3`; of the further instances it follows from the form the model gives them, log 7). -/
def Obligations.Ck14WordIsLinear : Prop :=
  ∀ (v : Ck14Variant) (x y : Acc14) (w u : Half),
    ck14Word v (x ^^^ y) (w ^^^ u) = ck14Word v x w ^^^ ck14Word v y u ∧ ck14Word v 0#14 0#16 = 0#14

/-- The instances of `CK14_VARIANT` are the recurrences of R112 (40_ck14_engine.md section 2; what a "bit step" is made of is log 7).
A recurrence is sixteen bit steps. Of every instance: the function is a recurrence's, in which
no bit of the word goes to two places and the constant counts (b, c); changing any one of the sixteen input bits changes the result (b);
some two words in the other order give another result (g). Every recurrence with these properties is an instance. -/
def Obligations.Ck14VariantsAreTheAdmissibleFunctions : Prop :=
  (∀ (r : Ck14Recurrence) (x : Acc14) (w : Half), r.apply x w =
    ((List.finRange 16).foldl (fun t k => (r.steps.get k).run w t) (x.setWidth 16)).setWidth 14) ∧
  (∀ v : Ck14Variant, ∃ r : Ck14Recurrence, (∀ x w, ck14Word v x w = r.apply x w) ∧ r.wordBits.Nodup ∧
    ∃ x w, r.apply x w ≠ r.withoutPoly.apply x w) ∧
  (∀ (v : Ck14Variant) (x : Acc14) (w : Half) (k : Nat), k < 16 → ck14Word v x (w ^^^ BitVec.twoPow 16 k) ≠ ck14Word v x w) ∧
  (∀ v : Ck14Variant, ∃ a b : Half, a ≠ b ∧ ck14Seq v 0#14 [a, b] ≠ ck14Seq v 0#14 [b, a]) ∧
  ∀ r : Ck14Recurrence, r.wordBits.Nodup →
    (∃ x w, r.apply x w ≠ r.withoutPoly.apply x w) →
    (∀ x w k, k < 16 → r.apply x (w ^^^ BitVec.twoPow 16 k) ≠ r.apply x w) →
    (∃ a b, r.apply (r.apply 0#14 a) b ≠ r.apply (r.apply 0#14 b) a) →
    ∃ v : Ck14Variant, ∀ x w, ck14Word v x w = r.apply x w

/-- R113: the two alternative instances. `V2` is sixteen steps in which the top bit XOR the input bit selects the constant; `V3` XORs
the whole word in and shifts right sixteen times; from its second step on, bits 15:14 of its value are 0. -/
def Obligations.Ck14AlternativesFollowTheirRecurrences : Prop :=
  (∀ (x : Acc14) (w : Half), ck14Word .v2 x w = (List.range 16).foldl
    (fun (s : Acc14) k => if s.getLsbD 13 ≠ w.getLsbD (15 - k) then (s <<< 1) ^^^ 0x23B1#14 else s <<< 1) x) ∧
  (∀ (x : Acc14) (w : Half) (t : Nat → Half), t 0 = x.setWidth 16 ^^^ w →
      (∀ n, t (n + 1) = if (t n).getLsbD 0 = true then (t n >>> 1) ^^^ 0x23B1#16 else t n >>> 1) →
    ck14Word .v3 x w = (t 16).extractLsb' 0 14 ∧ ∀ n, 2 ≤ n → n ≤ 16 → (t n).extractLsb' 14 2 = 0#2) ∧
  (ck14Word .v1 0#14 0#16 = 0#14 ∧ ck14Word .v2 0#14 0#16 = 0#14 ∧ ck14Word .v3 0#14 0#16 = 0#14) ∧
  ck14Word .v1 0#14 1#16 = 0x0001#14 ∧ ck14Word .v2 0#14 1#16 = 0x23B1#14 ∧ ck14Word .v3 0#14 1#16 = 0x2614#14

/-- Facts of `V1` (40_ck14_engine.md section 3, "[derived: from rules R110 and R111]"): a word with bits 15:14 clear is copied into a
zero state, and for a fixed word the fold is a bijection of the states. -/
def Obligations.Ck14V1CopiesAndPermutes : Prop :=
  (∀ w : Half, w.toNat < 0x4000 → (ck14Word .v1 0#14 w).toNat = w.toNat) ∧
  ∀ w : Half, Function.Bijective fun x => ck14Word .v1 x w

/-! ## The CRC-32 engine (41_crc32_engine.md) -/

/-- R134: `CRC32SEED` loads the initial value, in every phase, and changes nothing else. -/
def Obligations.Crc32SeedLoadsTheInitialValue : Prop :=
  (∀ s : State, exec .crc32seed s = .next { s with c32 := 0xFFFFFFFF#32, resp := some 0#32 }) ∧ EncodedZ 0x20#8 .crc32seed

/-- R135: `CRC32B` folds its operand byte into the running value, in every phase, and changes nothing else. -/
def Obligations.Crc32ByteFoldsTheOperand : Prop :=
  (∀ (s : State) (b : Byte), exec (.crc32b b) s = .next { s with c32 := crc32Byte s.c32 b, resp := some 0#32 }) ∧
  EncodedB 0x21#8 Instr.crc32b

/-- R136: `CRC32MEM` folds the image byte at its offset into the running value and changes nothing else; refused with `SEQERR` in
`RST`, with `ILLCMD` past the end. -/
def Obligations.Crc32MemFoldsTheImageByte : Prop :=
  (∀ (s : State) (a : Half), s.ph ≠ .rst → a.toNat < s.params.imgLen →
    exec (.crc32mem a) s = .next { s with c32 := crc32Byte s.c32 (s.img.read a.toNat), resp := some 0#32 }) ∧
  (∀ (s : State) (a : Half), s.ph = .rst → exec (.crc32mem a) s = .next { s with seqerr := true, resp := some 0#32 }) ∧
  (∀ (s : State) (a : Half), s.ph ≠ .rst → s.params.imgLen ≤ a.toNat →
    exec (.crc32mem a) s = .next { s with illcmd := true, resp := some 0#32 }) ∧
  EncodedA 0x22#8 Instr.crc32mem

/-- R137: `RDCRC32` returns the running value as it stands, in every phase, and changes nothing. -/
def Obligations.ReadCrc32ReturnsTheValue : Prop :=
  (∀ s : State, exec .rdcrc32 s = .next { s with resp := some s.c32 }) ∧ EncodedZ 0x23#8 .rdcrc32

/-- The table form of the byte step equals the bit-serial form (41_crc32_engine.md section 2, "[derived: from rule R130 ...]"). -/
def Obligations.Crc32TableFormIsBitSerial : Prop :=
  ∀ (c : Word) (b : Byte), crc32Byte c b =
    (List.range 8).foldl (fun x _ => if x.getLsbD 0 then (x >>> 1) ^^^ 0xEDB88320#32 else x >>> 1) (c ^^^ b.setWidth 32)

/-- R132: the fold of a byte sequence, first byte first, no final XOR; the CRC of the empty range is the seed. -/
def Obligations.Crc32FoldsFirstByteFirst : Prop :=
  (∀ c : Word, crc32Bytes c [] = c) ∧
  (∀ (c : Word) (b : Byte) (bs : List Byte), crc32Bytes c (b :: bs) = crc32Bytes (crc32Byte c b) bs) ∧
  (∀ c : Word, crcResult c = c) ∧ crc32Bytes Config.crc32Seed [] = 0xFFFFFFFF#32

/-- Laws of the engine (41_crc32_engine.md section 3, "[derived: from rules R130 to R132]"): the byte step is linear over GF(2) and, for
a fixed byte, a bijection of the running values; splitting a range does not change the result; two values the spec prints. -/
def Obligations.Crc32IsLinearBijectiveAndSplits : Prop :=
  (∀ (c d : Word) (b e : Byte), crc32Byte (c ^^^ d) (b ^^^ e) = crc32Byte c b ^^^ crc32Byte d e) ∧
  crc32Byte 0#32 0#8 = 0#32 ∧
  (∀ b : Byte, Function.Bijective fun c => crc32Byte c b) ∧
  (∀ (c : Word) (xs ys : List Byte), crc32Bytes c (xs ++ ys) = crc32Bytes (crc32Bytes c xs) ys) ∧
  crc32Byte 0xFFFFFFFF#32 0x00#8 = 0x2DFD1072#32 ∧ crc32Byte 0xFFFFFFFF#32 0xFF#8 = 0x00FFFFFF#32

/-! ## Engine-level commands against the pipeline -/

/-- `CK14CLR` followed by `CK14MEM` at `0x0400, 0x0402, ..., 0x3EFC` leaves in `S14` the value `PLACE` computes from the same image, and
changes nothing else (40_ck14_engine.md section 4, corner case of `CK14MEM`). -/
def Obligations.EngineScanEqualsPlace : Prop :=
  ∀ s : State, s.ph = .load → s.oob = false →
    ∃ t u, execAll (.ck14clr :: (List.range 7551).map (fun k => .ck14mem (BitVec.ofNat 16 (0x0400 + 2 * k)))) s = .next t ∧
      exec .place s = .next u ∧ t.s14 = u.s14 ∧ t = { s with s14 := t.s14, resp := some 0#32 }

/-- In `DONE`, `CRC32SEED` followed by `CRC32MEM` at `0, 1, ..., PM_SIZE+11` leaves in `C32` the value stored in the suffix CRC field
(41_crc32_engine.md section 4, corner case of `CRC32MEM`). -/
def Obligations.EngineCrcEqualsTheSuffixField : Prop :=
  ∀ s : State, Inv s → s.ph = .done →
    ∃ t, execAll (.crc32seed :: (List.range (s.params.pmSize + 12)).map (fun k => .crc32mem (BitVec.ofNat 16 k))) s = .next t ∧
      s.img.Word32At (s.params.pmSize + 12) t.c32 ∧ t = { s with c32 := t.c32, resp := some 0#32 }

/-- Engine-level commands between `PLACE` and `SUFFIX` cannot disturb the conversion (70_reset_and_hazards.md section 3, shared
accumulators): whatever they are, `SUFFIX` leaves the same image, the same `C32` and the same phase. -/
def Obligations.EngineCommandsCannotDisturbTheSuffix : Prop :=
  ∀ (s : State) (is : List Instr), s.ph = .placed →
    (∀ i ∈ is, i = .ck14clr ∨ (∃ a, i = .ck14add a) ∨ (∃ a, i = .ck14mem a) ∨ i = .rdck14 ∨ i = .crc32seed ∨
      (∃ b, i = .crc32b b) ∨ (∃ a, i = .crc32mem a) ∨ i = .rdcrc32) →
    ∃ t u, execAll (is ++ [.suffix]) s = .next t ∧ exec .suffix s = .next u ∧ t.img = u.img ∧ t.c32 = u.c32 ∧ t.ph = u.ph

/-! ## The whole machine -/

/-- The invariants of R34 hold at reset. -/
def Obligations.InvariantsHoldAtReset : Prop := Inv State.reset

/-- The invariants of R34 are kept by every step, from every state that meets them: any command word in any phase, and reset. -/
def Obligations.EveryStepKeepsTheInvariants : Prop :=
  ∀ s t : State, Inv s → step s = .next t → Inv t

/-- R35: the phase transitions of the table, and no others: every other command, and every refused command or word, leaves `PH`
unchanged; a slot that is not erased also sets `CONFLICT`; reset leads to `RST` from any phase. -/
def Obligations.PhaseChangesOnlyAsTheTableSays : Prop :=
  (∀ (i : Instr) (s : State), ∃ t, exec i s = .next t ∧
    t.ph = match i, s.ph with
      | .fill, .rst => .load
      | .place, .load => if s.oob = true then .fail else if s.img.read 0x3EFE = 0xFF#8 ∧ s.img.read 0x3EFF = 0x3F#8 then .placed else .fail
      | .run, .load => if s.oob = true then .fail else if s.img.read 0x3EFE = 0xFF#8 ∧ s.img.read 0x3EFF = 0x3F#8 then .done else .fail
      | .suffix, .placed => .done
      | _, p => p) ∧
  (∀ (i : Instr) (s : State), i = .place ∨ i = .run → s.ph = .load → s.oob = false → ¬s.img.slotErased →
    ∃ t, exec i s = .next t ∧ t.conflict = true) ∧
  (∀ (s : State) (c : Word) (rest : List HostEvent), s.port = .command c :: rest → decode c = none →
    ∃ t, step s = .next t ∧ t.ph = s.ph) ∧
  ∀ (s : State) (rest : List HostEvent), s.port = .reset :: rest → ∃ t, step s = .next t ∧ t.ph = .rst

/-- R27: which commands set the two flags, and that none clears them: `OOB` becomes 1 only by an `LDB` in phase `LOAD` outside the
window, `CONFLICT` only by a `PLACE` or `RUN` in phase `LOAD` with `OOB = 0` and the slot not erased; an illegal word touches neither.
`PLACE` and `RUN` fail the conversion when `OOB` is 1; `RDST` shows both; both are 0 after reset. -/
def Obligations.FlagsAreSetOnlyByTheirCauses : Prop :=
  (∀ (i : Instr) (s : State), ∃ t, exec i s = .next t ∧
    (t.oob = true ↔ s.oob = true ∨ ∃ a b, i = .ldb a b ∧ s.ph = .load ∧ (a.toNat < 0x0400 ∨ 0x8000 ≤ a.toNat)) ∧
    (t.conflict = true ↔ s.conflict = true ∨
      ((i = .place ∨ i = .run) ∧ s.ph = .load ∧ s.oob = false ∧ ¬(s.img.read 0x3EFE = 0xFF#8 ∧ s.img.read 0x3EFF = 0x3F#8)))) ∧
  (∀ (s : State) (c : Word) (rest : List HostEvent), s.port = .command c :: rest → decode c = none →
    ∃ t, step s = .next t ∧ t.oob = s.oob ∧ t.conflict = s.conflict) ∧
  (∀ (i : Instr) (s : State), i = .place ∨ i = .run → s.ph = .load → s.oob = true → ∃ t, exec i s = .next t ∧ t.ph = .fail) ∧
  (∀ s : State, ∃ w : Word, exec .rdst s = .next { s with resp := some w } ∧ w.getLsbD 4 = s.oob ∧ w.getLsbD 5 = s.conflict) ∧
  State.reset.oob = false ∧ State.reset.conflict = false

/-- R301: reset is the only thing that clears a flag or a sticky bit or moves `PH` backwards, and the only way to a second `FILL`;
nothing survives it (the host's later events are no state, log 1); the parameters are the same before and after every step. -/
def Obligations.OnlyResetClearsFlagsOrMovesBack : Prop :=
  (∀ (s t : State), step s = .next t → t.params = s.params) ∧
  (∀ (s t : State), (∀ rest, s.port ≠ .reset :: rest) → step s = .next t →
    (s.oob = true → t.oob = true) ∧ (s.conflict = true → t.conflict = true) ∧ (s.seqerr = true → t.seqerr = true) ∧
    (s.illcmd = true → t.illcmd = true) ∧ s.ph.code.toNat ≤ t.ph.code.toNat) ∧
  (∀ (s : State), s.ph ≠ .rst → ∃ t, exec .fill s = .next t ∧ t.ph = s.ph ∧ t.img = s.img) ∧
  ∀ (s u : State) (rest : List HostEvent), s.port = .reset :: rest → u.port = .reset :: rest → s.params = u.params →
    ∃ t, step s = .next t ∧ step u = .next t

/-- R36: which command writes which state, and which bytes of the image: `FILL` all, `LDB` the one at its operand, `PLACE` the slot,
`SUFFIX` the suffix area, `RUN` the slot and the suffix area, every other command none. -/
def Obligations.CommandsWriteOnlyTheirState : Prop :=
  ∀ (i : Instr) (s : State), ∃ t, exec i s = .next t ∧
    (t.img ≠ s.img → i = .fill ∨ (∃ a b, i = .ldb a b) ∨ i = .place ∨ i = .suffix ∨ i = .run) ∧
    (∀ x, t.img.read x ≠ s.img.read x → match i with
      | .fill => True
      | .ldb a _ => x = a.toNat
      | .place => Config.ckSlot ≤ x ∧ x < Config.ckSlot + 2
      | .suffix => s.params.pmSize ≤ x ∧ x < s.params.pmSize + 16
      | .run => (Config.ckSlot ≤ x ∧ x < Config.ckSlot + 2) ∨ (s.params.pmSize ≤ x ∧ x < s.params.pmSize + 16)
      | _ => False) ∧
    (t.s14 ≠ s.s14 → i = .place ∨ i = .run ∨ i = .ck14clr ∨ (∃ a, i = .ck14add a) ∨ ∃ a, i = .ck14mem a) ∧
    (t.c32 ≠ s.c32 → i = .suffix ∨ i = .run ∨ i = .crc32seed ∨ (∃ b, i = .crc32b b) ∨ ∃ a, i = .crc32mem a) ∧
    (t.oob ≠ s.oob → ∃ a b, i = .ldb a b) ∧ (t.conflict ≠ s.conflict → i = .place ∨ i = .run) ∧
    (t.ph ≠ s.ph → i = .fill ∨ i = .place ∨ i = .suffix ∨ i = .run) ∧
    ((t.seqerr ≠ s.seqerr ∨ t.illcmd ≠ s.illcmd) → ¬(PhaseLegal i s.ph ∧ OperandLegal s.params i)) ∧
    t.params = s.params ∧ t.port = s.port

/-- R270: there is no return from `FAIL`: no command leaves it, changes the image, or raises `OOB` or `CONFLICT` in it, and the
commands that could are refused; only the reset event leaves it, and discards the image. The sticky bits can still be set, with no
further effect. That a discarded image answers every read with a fault is the MODEL's form of "unspecified" (log 8, log 9, DESIGN
CHOICE). -/
def Obligations.FailIsLeftOnlyByReset : Prop :=
  (∀ s t : State, s.ph = .fail → step s = .next t →
    (∃ rest, s.port = .reset :: rest ∧ t.ph = .rst ∧ ∀ a n, t.memRead a n = .error .undefinedImage) ∨
    (t.ph = .fail ∧ t.img = s.img ∧ t.oob = s.oob ∧ t.conflict = s.conflict)) ∧
  (∀ (s : State) (i : Instr), s.ph = .fail → i = .place ∨ i = .run ∨ (∃ a b, i = .ldb a b) →
    exec i s = .next { s with seqerr := true, resp := some 0#32 }) ∧
  ∀ (s : State) (c : Word) (rest : List HostEvent), s.ph = .fail → s.port = .command c :: rest → decode c = none →
    step s = .next { s with port := rest, illcmd := true, resp := some 0#32 }

/-- The response and the host's list are no state of the block (10_state.md section 5; the two fields are on the host's side, log 1,
log 3): from two states that differ in them alone a command leaves states that differ in the list alone, and returns one response; no
step depends on the response of the step before it. For a command word, legal or not, a step is `transact`: of the build, the word and
the block it returns the next block and the response, which goes to the host; nothing else changes but the host's list. -/
def Obligations.CommandsReadNeitherResponseNorPort : Prop :=
  (∀ (i : Instr) (s : State) (p : List HostEvent) (r : Option Word),
    ∃ t, exec i s = .next t ∧ exec i { s with port := p, resp := r } = .next { t with port := p }) ∧
  (∀ (s : State) (r : Option Word), step { s with resp := r } = step s) ∧
  ∀ (s : State) (c : Word) (rest : List HostEvent), s.port = .command c :: rest →
    ∃ b v, transact s.params c s.toBlock = .ok (b, v) ∧
      step s = .next { toBlock := b, params := s.params, port := rest, resp := some v }

/-- R7: the constraints every instance of the parameters and constants meets: they hold of every build the model has, and every
admissible `PM_SIZE`, with any identifiers and any variant, has a build (log 5, DEDUCED). -/
def Obligations.EveryBuildMeetsTheConstraints : Prop :=
  (∀ p : Params, p.pmSize % 2 = 0 ∧ Config.winLo ≤ Config.ckStart ∧ Config.ckStart % 2 = 0 ∧ Config.ckSlot = Config.ckStop - 2 ∧
    Config.ckStart ≤ Config.ckSlot ∧ Config.ckStop ≤ p.pmSize ∧ Config.winHi ≤ p.pmSize ∧ p.imgLen ≤ 0x10000 ∧
    p.imgLen = p.pmSize + 16 ∧ Config.hdrLen + 4 = Config.suffixLen ∧ Config.suffixLen = 16) ∧
  ∀ (n : Nat) (vid pid : Half) (v : Ck14Variant), n % 2 = 0 → 0x8000 ≤ n → n ≤ 0xFFF0 →
    ∃ p : Params, p.pmSize = n ∧ p.usbVid = vid ∧ p.usbPid = pid ∧ p.ck14 = v
end

