-- ==== Sys2Proof/Laws/Memory.lean ====
section
/-! SUPPORT. The image: a read after a write, and the canonical form every memory operation keeps. -/

namespace Sys2Proof.Machine

variable {m : Memory} {a b n : Nat}

@[simp] theorem Memory.read_nil (a : Nat) : Memory.read [] a = fillByte a := rfl

@[simp] theorem Memory.read_erased (a : Nat) : Memory.erased.read a = fillByte a := rfl

theorem Memory.read_cons (k : Nat) (v : Byte) (m : Memory) (a : Nat) :
    Memory.read ((k, v) :: m) a = if a = k then v else m.read a := rfl

/-! ## A read after a write -/

theorem Memory.remove_cons (k : Nat) (v : Byte) (m : Memory) (a : Nat) :
    Memory.remove ((k, v) :: m) a = if k = a then m.remove a else (k, v) :: m.remove a := by
  by_cases h : k = a <;> simp [Memory.remove, h]

theorem Memory.place_cons (k : Nat) (v : Byte) (m : Memory) (a : Nat) (b : Byte) :
    Memory.place ((k, v) :: m) a b =
      if a < k then (a, b) :: (k, v) :: m else if a = k then (a, b) :: m else (k, v) :: m.place a b := rfl

theorem Memory.read_remove (m : Memory) (a x : Nat) :
    (m.remove a).read x = if x = a then fillByte a else m.read x := by
  induction m with
  | nil => by_cases h : x = a <;> simp [Memory.remove, h]
  | cons c m ih =>
    obtain ⟨k, v⟩ := c
    rw [Memory.remove_cons, Memory.read_cons]
    by_cases hk : k = a
    · rw [if_pos hk, ih]; subst hk
      by_cases hx : x = k <;> simp [hx]
    · rw [if_neg hk, Memory.read_cons, ih]
      by_cases hx : x = k
      · subst hx; simp [hk]
      · simp [hx]

theorem Memory.read_place (m : Memory) (a : Nat) (b : Byte) (x : Nat) :
    (m.place a b).read x = if x = a then b else m.read x := by
  induction m with
  | nil => rfl
  | cons c m ih =>
    obtain ⟨k, v⟩ := c
    rw [Memory.place_cons]
    by_cases h1 : a < k
    · rw [if_pos h1]; rfl
    · rw [if_neg h1]
      by_cases h2 : a = k
      · rw [if_pos h2]; subst h2
        simp only [Memory.read_cons]; split_ifs <;> rfl
      · rw [if_neg h2]
        simp only [Memory.read_cons, ih]
        by_cases hx : x = k
        · subst hx; simp [Ne.symm h2]
        · simp [hx]

/-- A read after a write: the byte written at its offset, every other byte as before. -/
theorem Memory.read_write (m : Memory) (a : Nat) (b : Byte) (x : Nat) :
    (m.write a b).read x = if x = a then b else m.read x := by
  unfold Memory.write
  split_ifs with h hx hx
  · subst hx h; simp [Memory.read_remove, Memory.unlisted]
  · simp [Memory.read_remove, hx]
  · simp [Memory.read_place, hx]
  · simp [Memory.read_place, hx]

@[simp] theorem Memory.read_write_same (m : Memory) (a : Nat) (b : Byte) : (m.write a b).read a = b := by
  simp [Memory.read_write]

theorem Memory.read_write_other (m : Memory) {a x : Nat} (b : Byte) (h : x ≠ a) :
    (m.write a b).read x = m.read x := by
  simp [Memory.read_write, h]

/-- A read outside the bytes written. -/
theorem Memory.read_writeBytes_outside (bs : List Byte) (m : Memory) {a x : Nat}
    (h : x < a ∨ a + bs.length ≤ x) : (m.writeBytes a bs).read x = m.read x := by
  induction bs generalizing m a with
  | nil => rfl
  | cons b bs ih =>
    rw [Memory.writeBytes, ih _ (by simp at h ⊢; omega), Memory.read_write_other]
    simp at h; omega

/-- A read of one of the bytes written. -/
theorem Memory.read_writeBytes_inside (bs : List Byte) (m : Memory) (a k : Nat) (h : k < bs.length) :
    (m.writeBytes a bs).read (a + k) = bs[k] := by
  induction bs generalizing m a k with
  | nil => simp at h
  | cons b bs ih =>
    rw [Memory.writeBytes]
    cases k with
    | zero => rw [Memory.read_writeBytes_outside _ _ (by omega)]; simp
    | succ k =>
      have := ih (m.write a b) (a + 1) k (by simpa using h)
      rw [show a + (k + 1) = a + 1 + k by omega, this]; rfl

/-! ## Ranges of bytes -/

@[simp] theorem Memory.readBytes_zero (m : Memory) (a : Nat) : m.readBytes a 0 = [] := rfl

theorem Memory.readBytes_succ (m : Memory) (a n : Nat) :
    m.readBytes a (n + 1) = m.read a :: m.readBytes (a + 1) n := rfl

@[simp] theorem Memory.length_readBytes (m : Memory) (a n : Nat) : (m.readBytes a n).length = n := by
  induction n generalizing a with
  | zero => rfl
  | succ n ih => simp [Memory.readBytes_succ, ih]

/-- Two images that agree on a range give the same bytes of it. -/
theorem Memory.readBytes_congr {m m' : Memory} {a n : Nat}
    (h : ∀ x, a ≤ x → x < a + n → m.read x = m'.read x) : m.readBytes a n = m'.readBytes a n := by
  induction n generalizing a with
  | zero => rfl
  | succ n ih =>
    rw [Memory.readBytes_succ, Memory.readBytes_succ, h a (by omega) (by omega),
      ih (fun x h1 h2 => h x (by omega) (by omega))]

theorem Memory.readBytes_append (m : Memory) (a n k : Nat) :
    m.readBytes a (n + k) = m.readBytes a n ++ m.readBytes (a + n) k := by
  induction n generalizing a with
  | zero => simp
  | succ n ih =>
    rw [show n + 1 + k = (n + k) + 1 by omega, Memory.readBytes_succ, Memory.readBytes_succ, ih,
      show a + 1 + n = a + (n + 1) by omega]; rfl

/-- The bytes just written, read back. -/
theorem Memory.readBytes_writeBytes (bs : List Byte) (m : Memory) (a : Nat) :
    (m.writeBytes a bs).readBytes a bs.length = bs := by
  induction bs generalizing m a with
  | nil => rfl
  | cons b bs ih =>
    rw [List.length_cons, Memory.readBytes_succ, Memory.writeBytes, ih,
      Memory.read_writeBytes_outside _ _ (by omega), Memory.read_write_same]

/-! ## The canonical form -/

/-- What `Memory.wf` says. -/
theorem Memory.wf_iff (bound : Nat) (m : Memory) :
    m.wf bound = true ↔ m.Pairwise (fun c d => c.1 < d.1) ∧ ∀ c ∈ m, c.1 < bound ∧ c.2 ≠ fillByte c.1 := by
  induction m with
  | nil => simp [Memory.wf]
  | cons c m ih =>
    obtain ⟨k, v⟩ := c
    rw [List.pairwise_cons, List.forall_mem_cons]
    simp only [Memory.wf, Bool.and_eq_true, decide_eq_true_iff, List.all_eq_true, ih]
    show ((_ ∧ v ≠ fillByte k) ∧ _) ∧ _ ↔ _
    tauto

@[simp] theorem Memory.wf_erased (bound : Nat) : Memory.erased.wf bound = true := rfl

theorem Memory.wf_remove {bound : Nat} (h : m.wf bound = true) (a : Nat) : (m.remove a).wf bound = true := by
  rw [Memory.wf_iff] at h ⊢
  exact ⟨h.1.filter _, fun c hc => h.2 c (List.mem_filter.mp hc).1⟩

theorem Memory.mem_place {a : Nat} {b : Byte} {c : Host.Cell} (h : c ∈ m.place a b) : c = (a, b) ∨ c ∈ m := by
  induction m with
  | nil => simpa [Memory.place] using h
  | cons d m ih =>
    obtain ⟨k, v⟩ := d
    simp only [Memory.place] at h
    split_ifs at h
    · simpa using h
    · simp at h ⊢; tauto
    · simp only [List.mem_cons] at h ⊢
      rcases h with h | h
      · exact .inr (.inl h)
      · rcases ih h with h | h <;> simp [h]

theorem Memory.wf_place {bound : Nat} {a : Nat} {b : Byte} (h : m.wf bound = true) (ha : a < bound)
    (hb : b ≠ fillByte a) : (m.place a b).wf bound = true := by
  rw [Memory.wf_iff] at h ⊢
  refine ⟨?_, fun c hc => ?_⟩
  · obtain ⟨hp, -⟩ := h
    induction m with
    | nil => simp [Memory.place]
    | cons d m ih =>
      obtain ⟨k, v⟩ := d
      rw [List.pairwise_cons] at hp
      simp only [Memory.place]
      split_ifs with h1 h2
      · refine List.pairwise_cons.mpr ⟨fun c hc => ?_, List.pairwise_cons.mpr hp⟩
        rcases List.mem_cons.mp hc with rfl | hc
        · exact h1
        · exact h1.trans (hp.1 c hc)
      · exact List.pairwise_cons.mpr ⟨fun c hc => h2 ▸ hp.1 c hc, hp.2⟩
      · refine List.pairwise_cons.mpr ⟨fun c hc => ?_, ih hp.2⟩
        rcases Memory.mem_place hc with rfl | hc
        · show k < a; omega
        · exact hp.1 c hc
  · rcases Memory.mem_place hc with rfl | hc
    · exact ⟨ha, hb⟩
    · exact h.2 c hc

theorem Memory.wf_write {bound : Nat} {a : Nat} (h : m.wf bound = true) (ha : a < bound) (b : Byte) :
    (m.write a b).wf bound = true := by
  unfold Memory.write
  split_ifs with hb
  · exact Memory.wf_remove h a
  · exact Memory.wf_place h ha hb

theorem Memory.wf_writeBytes {bound : Nat} (bs : List Byte) {m : Memory} {a : Nat} (h : m.wf bound = true)
    (ha : a + bs.length ≤ bound) : (m.writeBytes a bs).wf bound = true := by
  induction bs generalizing m a with
  | nil => exact h
  | cons b bs ih =>
    simp only [List.length_cons] at ha
    exact ih (Memory.wf_write h (by omega) b) (by omega)

/-- A byte below every listed offset reads as erased. -/
theorem Memory.read_of_lt_all (h : ∀ c ∈ m, a < c.1) : m.read a = fillByte a := by
  induction m with
  | nil => rfl
  | cons c m ih =>
    obtain ⟨k, v⟩ := c
    have hk : a < k := h (k, v) (by simp)
    rw [Memory.read_cons, if_neg (by omega), ih (fun c hc => h c (by simp [hc]))]

/-- Canonical images with the same bytes are the same list. -/
theorem Memory.ext_of_wf {bound : Nat} {m m' : Memory} (h : m.wf bound = true) (h' : m'.wf bound = true)
    (hr : ∀ a, m.read a = m'.read a) : m = m' := by
  rw [Memory.wf_iff] at h h'
  induction m generalizing m' with
  | nil =>
    cases m' with
    | nil => rfl
    | cons c m' =>
      have := hr c.1
      rw [Memory.read_nil, Memory.read_cons, if_pos rfl] at this
      exact absurd this.symm (h'.2 c (by simp)).2
  | cons c m ih =>
    cases m' with
    | nil =>
      have := hr c.1
      rw [Memory.read_nil, Memory.read_cons, if_pos rfl] at this
      exact absurd this (h.2 c (by simp)).2
    | cons d m' =>
      obtain ⟨k, v⟩ := c
      obtain ⟨k', v'⟩ := d
      simp only [List.pairwise_cons, List.forall_mem_cons] at h h'
      obtain ⟨⟨hk, hp⟩, ⟨-, hv⟩, hm⟩ := h
      obtain ⟨⟨hk', hp'⟩, ⟨-, hv'⟩, hm'⟩ := h'
      have e : k = k' := by
        rcases Nat.lt_trichotomy k k' with hlt | he | hlt
        · have := hr k
          rw [Memory.read_cons, if_pos rfl,
            Memory.read_of_lt_all (m := (k', v') :: m') (by
              intro c hc; rcases List.mem_cons.mp hc with rfl | hc
              · exact hlt
              · exact hlt.trans (hk' c hc))] at this
          exact absurd this hv
        · exact he
        · have := hr k'
          rw [Memory.read_cons k' v' m', if_pos rfl,
            Memory.read_of_lt_all (m := (k, v) :: m) (by
              intro c hc; rcases List.mem_cons.mp hc with rfl | hc
              · exact hlt
              · exact hlt.trans (hk c hc))] at this
          exact absurd this.symm hv'
      subst e
      have ev : v = v' := by simpa [Memory.read_cons] using hr k
      subst ev
      rw [ih (m' := m') ⟨hp, hm⟩ ⟨hp', hm'⟩ (fun a => ?_)]
      by_cases ha : a = k
      · subst ha
        rw [Memory.read_of_lt_all hk, Memory.read_of_lt_all hk']
      · simpa [Memory.read_cons, ha] using hr a

end Sys2Proof.Machine
end

