-- ==== Sys2Proof/Laws/State.lean ====
section
/-! SUPPORT. One lemma per field and update of `Block` and `State`, so that no later proof unfolds a record update. -/

namespace Sys2Proof.Machine

/-! ### `Block.raiseSeqerr` -/

@[simp] theorem Block.raiseSeqerr_img (b : Block) : b.raiseSeqerr.img = b.img := rfl
@[simp] theorem Block.raiseSeqerr_s14 (b : Block) : b.raiseSeqerr.s14 = b.s14 := rfl
@[simp] theorem Block.raiseSeqerr_c32 (b : Block) : b.raiseSeqerr.c32 = b.c32 := rfl
@[simp] theorem Block.raiseSeqerr_oob (b : Block) : b.raiseSeqerr.oob = b.oob := rfl
@[simp] theorem Block.raiseSeqerr_conflict (b : Block) : b.raiseSeqerr.conflict = b.conflict := rfl
@[simp] theorem Block.raiseSeqerr_ph (b : Block) : b.raiseSeqerr.ph = b.ph := rfl
@[simp] theorem Block.raiseSeqerr_seqerr (b : Block) : b.raiseSeqerr.seqerr = true := rfl
@[simp] theorem Block.raiseSeqerr_illcmd (b : Block) : b.raiseSeqerr.illcmd = b.illcmd := rfl

/-! ### `Block.raiseIllcmd` -/

@[simp] theorem Block.raiseIllcmd_img (b : Block) : b.raiseIllcmd.img = b.img := rfl
@[simp] theorem Block.raiseIllcmd_s14 (b : Block) : b.raiseIllcmd.s14 = b.s14 := rfl
@[simp] theorem Block.raiseIllcmd_c32 (b : Block) : b.raiseIllcmd.c32 = b.c32 := rfl
@[simp] theorem Block.raiseIllcmd_oob (b : Block) : b.raiseIllcmd.oob = b.oob := rfl
@[simp] theorem Block.raiseIllcmd_conflict (b : Block) : b.raiseIllcmd.conflict = b.conflict := rfl
@[simp] theorem Block.raiseIllcmd_ph (b : Block) : b.raiseIllcmd.ph = b.ph := rfl
@[simp] theorem Block.raiseIllcmd_seqerr (b : Block) : b.raiseIllcmd.seqerr = b.seqerr := rfl
@[simp] theorem Block.raiseIllcmd_illcmd (b : Block) : b.raiseIllcmd.illcmd = true := rfl

/-! ### `Block.enterFail` -/

@[simp] theorem Block.enterFail_img (b : Block) : b.enterFail.img = b.img := rfl
@[simp] theorem Block.enterFail_s14 (b : Block) : b.enterFail.s14 = b.s14 := rfl
@[simp] theorem Block.enterFail_c32 (b : Block) : b.enterFail.c32 = b.c32 := rfl
@[simp] theorem Block.enterFail_oob (b : Block) : b.enterFail.oob = b.oob := rfl
@[simp] theorem Block.enterFail_conflict (b : Block) : b.enterFail.conflict = b.conflict := rfl
@[simp] theorem Block.enterFail_ph (b : Block) : b.enterFail.ph = .fail := rfl
@[simp] theorem Block.enterFail_seqerr (b : Block) : b.enterFail.seqerr = b.seqerr := rfl
@[simp] theorem Block.enterFail_illcmd (b : Block) : b.enterFail.illcmd = b.illcmd := rfl

/-! ### `Block.setOob` -/

@[simp] theorem Block.setOob_img (b : Block) : b.setOob.img = b.img := rfl
@[simp] theorem Block.setOob_s14 (b : Block) : b.setOob.s14 = b.s14 := rfl
@[simp] theorem Block.setOob_c32 (b : Block) : b.setOob.c32 = b.c32 := rfl
@[simp] theorem Block.setOob_oob (b : Block) : b.setOob.oob = true := rfl
@[simp] theorem Block.setOob_conflict (b : Block) : b.setOob.conflict = b.conflict := rfl
@[simp] theorem Block.setOob_ph (b : Block) : b.setOob.ph = b.ph := rfl
@[simp] theorem Block.setOob_seqerr (b : Block) : b.setOob.seqerr = b.seqerr := rfl
@[simp] theorem Block.setOob_illcmd (b : Block) : b.setOob.illcmd = b.illcmd := rfl

/-! ### `Block.setConflict` -/

@[simp] theorem Block.setConflict_img (b : Block) : b.setConflict.img = b.img := rfl
@[simp] theorem Block.setConflict_s14 (b : Block) : b.setConflict.s14 = b.s14 := rfl
@[simp] theorem Block.setConflict_c32 (b : Block) : b.setConflict.c32 = b.c32 := rfl
@[simp] theorem Block.setConflict_oob (b : Block) : b.setConflict.oob = b.oob := rfl
@[simp] theorem Block.setConflict_conflict (b : Block) : b.setConflict.conflict = true := rfl
@[simp] theorem Block.setConflict_ph (b : Block) : b.setConflict.ph = b.ph := rfl
@[simp] theorem Block.setConflict_seqerr (b : Block) : b.setConflict.seqerr = b.seqerr := rfl
@[simp] theorem Block.setConflict_illcmd (b : Block) : b.setConflict.illcmd = b.illcmd := rfl

/-! ### `State.deliver` -/

@[simp] theorem State.deliver_toBlock (s : State) (r : Block × Word) : (s.deliver r).toBlock = r.1 := rfl
@[simp] theorem State.deliver_params (s : State) (r : Block × Word) : (s.deliver r).params = s.params := rfl
@[simp] theorem State.deliver_port (s : State) (r : Block × Word) : (s.deliver r).port = s.port := rfl
@[simp] theorem State.deliver_resp (s : State) (r : Block × Word) : (s.deliver r).resp = some r.2 := rfl

/-! ### `State.resetEvent` -/

@[simp] theorem State.resetEvent_toBlock (s : State) (rest : List HostEvent) : (s.resetEvent rest).toBlock = Block.reset := rfl
@[simp] theorem State.resetEvent_params (s : State) (rest : List HostEvent) : (s.resetEvent rest).params = s.params := rfl
@[simp] theorem State.resetEvent_port (s : State) (rest : List HostEvent) : (s.resetEvent rest).port = rest := rfl
@[simp] theorem State.resetEvent_resp (s : State) (rest : List HostEvent) : (s.resetEvent rest).resp = none := rfl

/-! ### `Block.reset` and `State.reset` -/

@[simp] theorem Block.reset_img : Block.reset.img = [] := rfl
@[simp] theorem Block.reset_s14 : Block.reset.s14 = 0#14 := rfl
@[simp] theorem Block.reset_c32 : Block.reset.c32 = 0xFFFFFFFF#32 := rfl
@[simp] theorem Block.reset_oob : Block.reset.oob = false := rfl
@[simp] theorem Block.reset_conflict : Block.reset.conflict = false := rfl
@[simp] theorem Block.reset_ph : Block.reset.ph = .rst := rfl
@[simp] theorem Block.reset_seqerr : Block.reset.seqerr = false := rfl
@[simp] theorem Block.reset_illcmd : Block.reset.illcmd = false := rfl
@[simp] theorem State.reset_toBlock : State.reset.toBlock = Block.reset := rfl
@[simp] theorem State.reset_params : State.reset.params = Params.default := rfl
@[simp] theorem State.reset_port : State.reset.port = [] := rfl
@[simp] theorem State.reset_resp : State.reset.resp = none := rfl

end Sys2Proof.Machine
end

