-- ==== Sys2Proof/Laws/Ops.lean ====
section
/-! SUPPORT. The shared operations: what the build's sizes are, when the memory primitives answer, and everything the tests before a
command's body can do. -/

namespace Sys2Proof

/-! ## Sizes (R7) -/

theorem Params.winHi_le_pmSize (p : Params) : 0x8000 ≤ p.pmSize := Nat.le_add_right _ _

theorem Params.pmSize_even (p : Params) : p.pmSize % 2 = 0 := by
  unfold Params.pmSize Config.winHi; omega

theorem Params.imgLen_eq (p : Params) : p.imgLen = p.pmSize + 16 := rfl

theorem Params.imgLen_le (p : Params) : p.imgLen ≤ 0x10000 := by
  have := p.pmExtra.isLt
  unfold Params.imgLen Params.pmSize
  simp only [Config.pmExtraBound, Config.maxImgLen, Config.suffixLen, Config.winHi] at *
  omega

end Sys2Proof

namespace Sys2Proof.Machine

/-! ## Evaluation -/

@[simp] theorem force_eq {n : Nat} {α : Type} (x : BitVec n) (k : BitVec n → α) : force x k = k x := by
  unfold force
  have hx : BitVec.ofNat n x.toNat = x := by simp
  split <;> rename_i h <;> rw [h] at hx <;> rw [hx]

/-! ## The memory primitives -/

theorem Block.memRead_ok {b : Block} {p : Params} {a n : Nat} (hp : b.ph ≠ .rst) (h : a + n ≤ p.imgLen) :
    b.memRead p a n = .ok (b.img.readBytes a n) := by
  rw [Block.memRead, if_neg hp, if_neg (by omega)]

theorem Block.memWrite_ok {b : Block} {p : Params} {a : Nat} {bs : List Byte} (h : a + bs.length ≤ p.imgLen) :
    b.memWrite p a bs = .ok { b with img := b.img.writeBytes a bs } := by
  rw [Block.memWrite, if_neg (by omega)]

theorem Block.readByte_ok {b : Block} {p : Params} {a : Nat} (hp : b.ph ≠ .rst) (h : a < p.imgLen) :
    b.readByte p a = .ok (b.img.read a) := by
  rw [Block.readByte, Block.memRead_ok hp (by omega)]; rfl

theorem Block.readWord_ok {b : Block} {p : Params} {a : Nat} (hp : b.ph ≠ .rst) (h : a + 1 < p.imgLen) :
    b.readWord p a = .ok (wordOfBytes (b.img.read a) (b.img.read (a + 1))) := by
  rw [Block.readWord, Block.memRead_ok hp (by omega)]; rfl

/-- In phase `RST` the image has no value. -/
theorem State.memRead_rst {s : State} (hp : s.ph = .rst) (a n : Nat) : s.memRead a n = .error .undefinedImage := by
  rw [State.memRead, Block.memRead, if_pos hp]

/-! ## Before the body of a command (R86) -/

theorem attempt_accepted {p : Params} {i : Instr} {b : Block} {body : Except Fault (Block × Word)}
    (hp : phaseAllows i b.ph = true) (ho : operandLegal p i = true) : attempt p i b body = body := by
  simp [attempt, hp, ho]

theorem attempt_outOfPhase {p : Params} {i : Instr} {b : Block} {body : Except Fault (Block × Word)}
    (hp : phaseAllows i b.ph = false) : attempt p i b body = .ok (b.raiseSeqerr, 0#32) := by
  simp [attempt, hp]

theorem attempt_badOperand {p : Params} {i : Instr} {b : Block} {body : Except Fault (Block × Word)}
    (hp : phaseAllows i b.ph = true) (ho : operandLegal p i = false) : attempt p i b body = .ok (b.raiseIllcmd, 0#32) := by
  simp [attempt, hp, ho]

/-- The window test of `LDB` on the operand's value. -/
theorem inWindow_iff (a : Half) : inWindow a = true ↔ 0x0400 ≤ a.toNat ∧ a.toNat < 0x8000 := by
  simp [inWindow]

end Sys2Proof.Machine
end

