-- ==== Sys2Proof/Laws/Ck14.lean ====
section
/-! SUPPORT. Linear functions of bit vectors, and the recurrences of Config.lean as such: each is linear, and so is settled by its
values at the single bits. -/

namespace Sys2Proof

/-- Four terms XORed in another order. -/
theorem xor_xor_xor_comm {n : Nat} (a b u v : BitVec n) : a ^^^ b ^^^ (u ^^^ v) = a ^^^ u ^^^ (b ^^^ v) := by
  rw [BitVec.xor_assoc, BitVec.xor_assoc, ← BitVec.xor_assoc b, BitVec.xor_comm b, BitVec.xor_assoc u]

/-! ## A linear function by its values at the single bits -/

/-- The XOR of the entries whose bit of `x` is 1, the first entry standing for bit `k`. -/
def xorSelected {n : Nat} (x : BitVec n) : Nat → List Acc14 → Acc14
  | _, []      => 0
  | k, c :: cs => if x.getLsbD k then c ^^^ xorSelected x (k + 1) cs else xorSelected x (k + 1) cs


@[simp] theorem xorSelected_nil {n : Nat} (x : BitVec n) (k : Nat) : xorSelected x k [] = 0#14 := rfl

theorem xorSelected_cons {n : Nat} (x : BitVec n) (k : Nat) (c : Acc14) (cs : List Acc14) :
    xorSelected x k (c :: cs) = (if x.getLsbD k then c else 0#14) ^^^ xorSelected x (k + 1) cs := by
  rw [xorSelected]; split <;> simp

@[simp] theorem xorSelected_zero {n : Nat} (k : Nat) (cs : List Acc14) : xorSelected (0#n) k cs = 0#14 := by
  induction cs generalizing k with
  | nil => rfl
  | cons c cs ih => simp [xorSelected_cons, ih]

theorem xorSelected_xor {n : Nat} (x y : BitVec n) (k : Nat) (cs : List Acc14) :
    xorSelected (x ^^^ y) k cs = xorSelected x k cs ^^^ xorSelected y k cs := by
  induction cs generalizing k with
  | nil => simp
  | cons c cs ih =>
    have h4 : ∀ a b u v : Acc14, a ^^^ u ^^^ (b ^^^ v) = a ^^^ b ^^^ (u ^^^ v) := fun a b u v => by
      rw [BitVec.xor_assoc, BitVec.xor_assoc, ← BitVec.xor_assoc u, BitVec.xor_comm u, BitVec.xor_assoc b]
    rw [xorSelected_cons, xorSelected_cons, xorSelected_cons, ih, h4, BitVec.getLsbD_xor]
    congr 1
    cases x.getLsbD k <;> cases y.getLsbD k <;> simp

/-- The bits of `x` from `k` up. -/
theorem shiftRight_shiftLeft_split {n : Nat} (x : BitVec n) (k : Nat) :
    (x >>> k) <<< k = (if x.getLsbD k then BitVec.twoPow n k else 0#n) ^^^ (x >>> (k + 1)) <<< (k + 1) := by
  refine BitVec.eq_of_getLsbD_eq fun j hj => ?_
  have hbit : (if x.getLsbD k then BitVec.twoPow n k else 0#n).getLsbD j = (decide (j = k) && x.getLsbD k) := by
    split <;> rename_i h <;> simp [h, BitVec.getLsbD_twoPow, eq_comm]
    omega
  rw [BitVec.getLsbD_xor, hbit]
  simp only [BitVec.getLsbD_shiftLeft, BitVec.getLsbD_ushiftRight, hj]
  rcases Nat.lt_trichotomy j k with h | h | h
  · simp [h, show j ≠ k by omega, show j < k + 1 by omega]
  · subst h; simp
  · simp [show ¬j < k by omega, show j ≠ k by omega, show ¬j < k + 1 by omega, show k + (j - k) = j by omega,
      show k + 1 + (j - (k + 1)) = j by omega]

/-- A linear function is the XOR of its values at the single bits. -/
theorem linear_eq_xorSelected {n : Nat} (g : BitVec n → Acc14) (h : ∀ x y, g (x ^^^ y) = g x ^^^ g y) (x : BitVec n) :
    g x = xorSelected x 0 ((List.range' 0 n).map fun k => g (BitVec.twoPow n k)) := by
  have h0 : g 0#n = 0#14 := by simpa using h 0#n 0#n
  have key : ∀ m k, k + m = n →
      xorSelected x k ((List.range' k m).map fun k => g (BitVec.twoPow n k)) = g ((x >>> k) <<< k) := by
    intro m
    induction m with
    | zero =>
      intro k hk
      rw [Nat.add_zero] at hk
      subst hk
      simp [h0]
    | succ m ih =>
      intro k hk
      rw [List.range'_succ, List.map_cons, xorSelected_cons, ih (k + 1) (by omega), shiftRight_shiftLeft_split x k, h]
      congr 1
      split <;> simp [h0]
  simpa using (key n 0 (by omega)).symm

/-- Two linear functions that agree on the single bits of the state and of the word are one. -/
theorem linear_ext {f g : Acc14 → Half → Acc14} (hf : ∀ x y w u, f (x ^^^ y) (w ^^^ u) = f x w ^^^ f y u)
    (hg : ∀ x y w u, g (x ^^^ y) (w ^^^ u) = g x w ^^^ g y u)
    (hx : ∀ k < 14, f (BitVec.twoPow 14 k) 0#16 = g (BitVec.twoPow 14 k) 0#16)
    (hw : ∀ k < 16, f 0#14 (BitVec.twoPow 16 k) = g 0#14 (BitVec.twoPow 16 k)) (x : Acc14) (w : Half) : f x w = g x w := by
  have split : ∀ {e : Acc14 → Half → Acc14}, (∀ x y w u, e (x ^^^ y) (w ^^^ u) = e x w ^^^ e y u) →
      e x w = e x 0#16 ^^^ e 0#14 w := fun h => by simpa using h x 0#14 0#16 w
  rw [split hf, split hg,
    linear_eq_xorSelected (fun x => f x 0#16) (fun x y => by simpa using hf x y 0#16 0#16) x,
    linear_eq_xorSelected (fun x => g x 0#16) (fun x y => by simpa using hg x y 0#16 0#16) x,
    linear_eq_xorSelected (fun w => f 0#14 w) (fun w u => by simpa using hf 0#14 0#14 w u) w,
    linear_eq_xorSelected (fun w => g 0#14 w) (fun w u => by simpa using hg 0#14 0#14 w u) w]
  congr 2
  · exact List.map_congr_left fun k hk => hx k (by simp at hk; omega)
  · exact List.map_congr_left fun k hk => hw k (by simp at hk; omega)

/-! ## The recurrences are linear -/

theorem Ck14Recurrence.foldIf_xor (c d : Bool) (t u : Half) :
    foldIf (c ^^ d) (t ^^^ u) = foldIf c t ^^^ foldIf d u := by
  have h : ∀ (c : Bool) (t : Half), foldIf c t = t ^^^ (if c then Config.poly14.setWidth 16 else 0#16) := fun c t => by
    cases c <;> simp [foldIf]
  rw [h, h, h, xor_xor_xor_comm]
  congr 1
  cases c <;> cases d <;> simp

theorem Ck14Condition.bit_xor (c : Ck14Condition) (x y w u : Half) :
    c.bit (x ^^^ y) (w ^^^ u) = (c.bit x w ^^ c.bit y u) := by
  cases c <;> simp [Ck14Condition.bit]

theorem Ck14Condition.foldAll_xor (l : List Ck14Condition) (x y w u t v : Half) :
    foldAll (x ^^^ y) (w ^^^ u) l (t ^^^ v) = foldAll x w l t ^^^ foldAll y u l v := by
  induction l generalizing t v with
  | nil => rfl
  | cons c l ih => rw [foldAll, foldAll, foldAll, ← ih, bit_xor, Ck14Recurrence.foldIf_xor]

theorem Ck14Input.enterAll_xor (l : List Ck14Input) (w u t v : Half) :
    enterAll (w ^^^ u) l (t ^^^ v) = enterAll w l t ^^^ enterAll u l v := by
  induction l generalizing t v with
  | nil => rfl
  | cons e l ih =>
    have h : ∀ b d : Bool, (BitVec.ofBool (b ^^ d)).setWidth 16 = (BitVec.ofBool b).setWidth 16 ^^^ (BitVec.ofBool d).setWidth 16 := by
      decide
    rw [enterAll, enterAll, enterAll, ← ih, BitVec.getLsbD_xor, h, BitVec.shiftLeft_xor_distrib, xor_xor_xor_comm]

theorem Ck14Shift.run_xor (d : Ck14Shift) (t u : Half) : d.run (t ^^^ u) = d.run t ^^^ d.run u := by
  cases d
  · exact BitVec.shiftLeft_xor_distrib ..
  · exact BitVec.ushiftRight_xor_distrib ..

theorem Ck14Step.move_xor (e : Ck14Step) (t u : Half) : e.move (t ^^^ u) = e.move t ^^^ e.move u := by
  have h : ∀ (b : Bool) (t u : Half), (if b then t ^^^ u else 0#16) = (if b then t else 0#16) ^^^ (if b then u else 0#16) := by
    intro b; cases b <;> simp
  rw [move, move, move, Ck14Shift.run_xor, Ck14Shift.run_xor, h, h,
    xor_xor_xor_comm (e.shift.run t) (e.shift.run u) (if e.plusSelf then t else 0#16), xor_xor_xor_comm]

theorem Ck14Step.keep_xor (e : Ck14Step) (t u : Half) : e.keep (t ^^^ u) = e.keep t ^^^ e.keep u := by
  unfold keep; split <;> simp [BitVec.setWidth_xor]

/-- A bit step is linear in the register and the word. -/
theorem Ck14Step.run_xor (e : Ck14Step) (w u x y : Half) : e.run (w ^^^ u) (x ^^^ y) = e.run w x ^^^ e.run u y := by
  simp only [run, Machine.force_eq, Ck14Input.enterAll_xor, Ck14Condition.foldAll_xor, move_xor, keep_xor]

theorem Ck14Step.runAll_xor (l : List Ck14Step) (w u x y : Half) :
    runAll (w ^^^ u) l (x ^^^ y) = runAll w l x ^^^ runAll u l y := by
  induction l generalizing x y with
  | nil => rfl
  | cons e l ih => simp only [runAll, Machine.force_eq, run_xor, ih]

/-- R112 (c), for every recurrence of the form. -/
theorem Ck14Recurrence.apply_xor (r : Ck14Recurrence) (x y : Acc14) (w u : Half) :
    r.apply (x ^^^ y) (w ^^^ u) = r.apply x w ^^^ r.apply y u := by
  rw [apply, apply, apply, BitVec.setWidth_xor, Ck14Step.runAll_xor, BitVec.setWidth_xor]

@[simp] theorem Ck14Recurrence.apply_zero (r : Ck14Recurrence) : r.apply 0#14 0#16 = 0#14 := by
  simpa using r.apply_xor 0#14 0#14 0#16 0#16

/-! ## The variants the spec names, as recurrences -/

/-- A bit step that shifts and does nothing else. -/
def Ck14Step.plain (d : Ck14Shift) : Ck14Step where
  enter        := []
  foldFirst    := []
  shift        := d
  plusSelf     := false
  plusOpposite := false
  shiftIn      := []
  fold         := []
  narrow       := true

/-- `V1` (R110). -/
def Ck14Recurrence.v1 : Ck14Recurrence where
  steps := Vector.ofFn fun k => { Ck14Step.plain .left with shiftIn := [⟨k.rev, 0⟩], fold := [.state 13] }

/-- `V2` (R113). -/
def Ck14Recurrence.v2 : Ck14Recurrence where
  steps := Vector.ofFn fun k => { Ck14Step.plain .left with fold := [.state 13, .input k.rev] }

/-- `V3` (R113): the whole word enters before the first shift. -/
def Ck14Recurrence.v3 : Ck14Recurrence where
  steps := Vector.ofFn fun k =>
    { Ck14Step.plain .right with
      enter := if k = 0 then (List.finRange 16).map fun i => ⟨i, i⟩ else [], fold := [.state 0], narrow := false }

end Sys2Proof
end

