-- ==== Sys2Proof/Laws/Encoding.lean ====
section
/-! SUPPORT. The three fields of a command word (R80) and of an encoded command. -/

namespace Sys2Proof

/-! ## The fields of `OP ++ A ++ B` -/

theorem getLsbD_fields (op : Byte) (a : Half) (b : Byte) (k : Nat) :
    BitVec.getLsbD (w := 32) (op ++ a ++ b) k =
      if k < 8 then b.getLsbD k else if k < 24 then a.getLsbD (k - 8) else op.getLsbD (k - 24) := by
  show BitVec.getLsbD (w := 8 + 16 + 8) (op ++ a ++ b) k = _
  rw [BitVec.getLsbD_append, BitVec.getLsbD_append]
  by_cases h1 : k < 8
  · simp [h1]
  · by_cases h2 : k < 24
    · simp [h1, h2, show k - 8 < 16 by omega]
    · simp [h1, h2, show ¬(k - 8 < 16) by omega, show k - 8 - 16 = k - 24 by omega]

theorem opField_append (op : Byte) (a : Half) (b : Byte) : opField (op ++ a ++ b) = op := by
  refine BitVec.eq_of_getLsbD_eq fun k hk => ?_
  rw [opField, BitVec.getLsbD_extractLsb', getLsbD_fields]
  simp [hk, show ¬(24 + k < 8) by omega]

theorem aField_append (op : Byte) (a : Half) (b : Byte) : aField (op ++ a ++ b) = a := by
  refine BitVec.eq_of_getLsbD_eq fun k hk => ?_
  rw [aField, BitVec.getLsbD_extractLsb', getLsbD_fields]
  simp [hk, show 8 + k < 24 by omega]

theorem bField_append (op : Byte) (a : Half) (b : Byte) : bField (op ++ a ++ b) = b := by
  refine BitVec.eq_of_getLsbD_eq fun k hk => ?_
  rw [bField, BitVec.getLsbD_extractLsb', getLsbD_fields]
  simp [hk]

/-- A word is its three fields. -/
theorem fields_append (c : Word) : opField c ++ aField c ++ bField c = c := by
  refine BitVec.eq_of_getLsbD_eq fun k hk => ?_
  rw [getLsbD_fields, opField, aField, bField, BitVec.getLsbD_extractLsb', BitVec.getLsbD_extractLsb',
    BitVec.getLsbD_extractLsb']
  by_cases h1 : k < 8
  · simp [h1]
  · by_cases h2 : k < 24
    · simp [h1, h2, show k - 8 < 16 by omega, show 8 + (k - 8) = k by omega]
    · simp [h1, h2, show k - 24 < 8 by omega, show 24 + (k - 24) = k by omega]

/-- The encoder writes the three fields side by side. -/
theorem encode_eq_append (i : Instr) : encode i = i.opcode ++ i.operandA ++ i.operandB := by
  refine BitVec.eq_of_getLsbD_eq fun k hk => ?_
  rw [getLsbD_fields]
  simp only [encode, BitVec.getLsbD_or, BitVec.getLsbD_shiftLeft, BitVec.getLsbD_setWidth, hk]
  by_cases h1 : k < 8
  · simp [h1, show k < 24 by omega]
  · rw [BitVec.getLsbD_of_ge i.operandB k (by omega)]
    by_cases h2 : k < 24
    · simp [h1, h2, show k - 8 < 32 by omega]
    · rw [BitVec.getLsbD_of_ge i.operandA (k - 8) (by omega)]
      simp [h1, h2, show k - 24 < 32 by omega]

theorem opField_encode (i : Instr) : opField (encode i) = i.opcode := by rw [encode_eq_append, opField_append]
theorem aField_encode (i : Instr) : aField (encode i) = i.operandA := by rw [encode_eq_append, aField_append]
theorem bField_encode (i : Instr) : bField (encode i) = i.operandB := by rw [encode_eq_append, bField_append]

/-! ## The decoder on the fields -/

theorem decode_append (op : Byte) (a : Half) (b : Byte) :
    decode (op ++ a ++ b) = match op.toNat with
      | 0x00 => if a = 0#16 ∧ b = 0#8 then some .nop else none
      | 0x01 => if a = 0#16 ∧ b = 0#8 then some .fill else none
      | 0x02 => some (.ldb a b)
      | 0x03 => if a = 0#16 ∧ b = 0#8 then some .place else none
      | 0x04 => if a = 0#16 ∧ b = 0#8 then some .suffix else none
      | 0x05 => if a = 0#16 ∧ b = 0#8 then some .run else none
      | 0x06 => if b = 0#8 then some (.outb a) else none
      | 0x07 => if a = 0#16 ∧ b = 0#8 then some .rdst else none
      | 0x10 => if a = 0#16 ∧ b = 0#8 then some .ck14clr else none
      | 0x11 => if b = 0#8 then some (.ck14add a) else none
      | 0x12 => if b = 0#8 then some (.ck14mem a) else none
      | 0x13 => if a = 0#16 ∧ b = 0#8 then some .rdck14 else none
      | 0x20 => if a = 0#16 ∧ b = 0#8 then some .crc32seed else none
      | 0x21 => if a = 0#16 then some (.crc32b b) else none
      | 0x22 => if b = 0#8 then some (.crc32mem a) else none
      | 0x23 => if a = 0#16 ∧ b = 0#8 then some .rdcrc32 else none
      | _ => none := by
  unfold decode formatZ formatA formatB
  rw [opField_append, aField_append, bField_append] <;> rfl

end Sys2Proof
end

