-- ==== Sys2Proof/Laws/Engines.lean ====
section
/-! SUPPORT. The two engines' loops without `force`, and the walks of `PLACE` and `SUFFIX` in closed form. -/

namespace Sys2Proof.Machine

/-! ## Loops -/

@[simp] theorem foldBits_zero (bit : Acc14 → Bool → Acc14) (w : Half) (x : Acc14) : foldBits bit w 0 x = x := rfl

theorem foldBits_succ (bit : Acc14 → Bool → Acc14) (w : Half) (n : Nat) (x : Acc14) :
    foldBits bit w (n + 1) x = foldBits bit w n (bit x (w.getLsbD n)) := by
  simp [foldBits]

@[simp] theorem ck14ShiftsV3_zero (t : Half) : ck14ShiftsV3 0 t = t := rfl

theorem ck14ShiftsV3_succ (n : Nat) (t : Half) : ck14ShiftsV3 (n + 1) t = ck14ShiftsV3 n (ck14ShiftV3 t) := by
  simp [ck14ShiftsV3]

@[simp] theorem crc32Shifts_zero (c : Word) : crc32Shifts 0 c = c := rfl

theorem crc32Shifts_succ (n : Nat) (c : Word) : crc32Shifts (n + 1) c = crc32Shifts n (crc32Shift c) := by
  simp [crc32Shifts]

/-- There is no final XOR (R132). -/
@[simp] theorem crcResult_eq (c : Word) : crcResult c = c := by simp [crcResult]

/-! ## Sequences -/

theorem ck14Seq_append (v : Ck14Variant) (x : Acc14) (ws vs : List Half) :
    ck14Seq v x (ws ++ vs) = ck14Seq v (ck14Seq v x ws) vs := by
  induction ws generalizing x with
  | nil => rfl
  | cons w ws ih => exact ih _

/-! ## The walks -/

/-- The scan in closed form: the words at `a, a+2, ...`, in order. -/
theorem Block.scanFrom_ok {b : Block} {p : Params} (hp : b.ph ≠ .rst) {n a : Nat} (h : a + 2 * n ≤ p.imgLen) (x : Acc14) :
    b.scanFrom p n a x = .ok (ck14Seq p.ck14 x ((List.range n).map fun k => b.img.word (a + 2 * k))) := by
  induction n generalizing a x with
  | zero => rfl
  | succ n ih =>
    rw [Block.scanFrom, Block.readWord_ok hp (by omega)]
    simp only [force_eq, bind, Except.bind]
    rw [ih (by omega), List.range_succ_eq_map]
    simp only [List.map_cons, List.map_map, ck14Seq]
    congr 2
    refine List.map_congr_left fun k _ => ?_
    simp only [Function.comp, Nat.succ_eq_add_one]
    congr 1; omega

/-- The CRC walk in closed form: the bytes at `a, a+1, ...`, in order. -/
theorem Block.crcFrom_ok {b : Block} {p : Params} (hp : b.ph ≠ .rst) {n a : Nat} (h : a + n ≤ p.imgLen) (c : Word) :
    b.crcFrom p n a c = .ok (crc32Bytes c ((List.range n).map fun k => b.img.read (a + k))) := by
  induction n generalizing a c with
  | zero => rfl
  | succ n ih =>
    rw [Block.crcFrom, Block.readByte_ok hp (by omega)]
    simp only [force_eq, bind, Except.bind]
    rw [ih (by omega), List.range_succ_eq_map]
    simp only [List.map_cons, List.map_map, crc32Bytes]
    congr 2
    refine List.map_congr_left fun k _ => ?_
    simp only [Function.comp, Nat.succ_eq_add_one]
    congr 1; omega

/-! ## The window's checksum and the image's CRC -/

/-- The window's checksum as the sequence of its words (R172). -/
theorem windowSum_eq (v : Ck14Variant) (m : Memory) :
    windowSum v m = ck14Seq v 0#14 ((List.range 7551).map fun k => m.word (0x0400 + 2 * k)) := by
  delta windowSum Memory.windowWords; exact Eq.refl _

/-- The CRC of a prefix as the fold of its bytes (R192). -/
theorem prefixCrc_eq (m : Memory) (n : Nat) :
    prefixCrc m n = crc32Bytes 0xFFFFFFFF#32 ((List.range n).map fun a => m.read a) := by
  delta prefixCrc Memory.prefixBytes; exact Eq.refl _

/-- Images that agree on the window have one checksum. -/
theorem windowSum_congr {v : Ck14Variant} {m m' : Memory} (h : ∀ a, 0x0400 ≤ a → a < 0x3EFE → m.read a = m'.read a) :
    windowSum v m = windowSum v m' := by
  refine (windowSum_eq v m).trans (.trans (congrArg _ (List.map_congr_left fun k hk => ?_)) (windowSum_eq v m').symm)
  have hk' := List.mem_range.mp hk
  rw [Memory.word, Memory.word, h _ (by omega) (by omega), h _ (by omega) (by omega)]

/-- Images that agree on a prefix have one CRC of it. -/
theorem prefixCrc_congr {m m' : Memory} {n : Nat} (h : ∀ a, a < n → m.read a = m'.read a) : prefixCrc m n = prefixCrc m' n := by
  rw [prefixCrc_eq, prefixCrc_eq, List.map_congr_left fun a ha => h a (List.mem_range.mp ha)]

end Sys2Proof.Machine
end

