-- ==== Sys2Proof/Laws/Exec.lean ====
section
/-! SUPPORT. Everything a command can do, said once without the memory primitives' checks: `execute p i b` returns `after p i b`, a
block and a response, from every block, and `exec i s` delivers it. -/

namespace Sys2Proof.Machine

/-! ## The bodies of `PLACE` and `SUFFIX` -/

/-- The image with the checksum `x` in the slot (R174). -/
@[irreducible] def Memory.withSlot (m : Memory) (x : Acc14) : Memory := m.writeBytes 0x3EFE (bytes16 (x.setWidth 16))

/-- The image with the header of R191. -/
@[irreducible] def Memory.withHeader (m : Memory) (p : Params) : Memory := m.writeBytes p.pmSize (suffixHeader p)

/-- The image with the CRC `c` behind the header (R193). -/
@[irreducible] def Memory.withCrc (m : Memory) (p : Params) (c : Word) : Memory := m.writeBytes (p.pmSize + 12) (bytes32 c)

/-- What the body of `PLACE` leaves (R171 to R174). -/
def afterPlace (p : Params) (b : Block) : Block :=
  if b.oob then { b with ph := .fail }
  else if b.img.read 0x3EFE = 0xFF#8 ∧ b.img.read 0x3EFF = 0x3F#8 then
    { b with s14 := windowSum p.ck14 b.img, img := b.img.withSlot (windowSum p.ck14 b.img), ph := .placed }
  else { b with s14 := windowSum p.ck14 b.img, conflict := true, ph := .fail }

/-- The CRC `SUFFIX` computes (R192). -/
@[irreducible] def suffixCrc (p : Params) (b : Block) : Word := prefixCrc (b.img.withHeader p) (p.pmSize + 12)

/-- What the body of `SUFFIX` leaves (R191 to R193). -/
def afterSuffix (p : Params) (b : Block) : Block :=
  { b with img := (b.img.withHeader p).withCrc p (suffixCrc p b), c32 := suffixCrc p b, ph := .done }

theorem scanWords_eq : scanWords = 7551 := rfl

/-- The scan of `PLACE` computes the window's checksum (R172). -/
theorem scan_eq {b : Block} (p : Params) (hp : b.ph ≠ .rst) :
    b.scanFrom p scanWords Config.ckStart Config.ck14Seed = .ok (windowSum p.ck14 b.img) := by
  have hs := p.winHi_le_pmSize
  have hi := p.imgLen_eq
  rw [Block.scanFrom_ok hp (by simp [scanWords_eq, Config.ckStart]; omega)]
  rw [windowSum_eq, scanWords_eq, Config.ckStart, Config.ck14Seed]

/-- The slot test and the store (R173, R174). -/
theorem slotBody_eq {b : Block} (p : Params) (hp : b.ph ≠ .rst) :
    slotBody p b = .ok (if b.img.read 0x3EFE = 0xFF#8 ∧ b.img.read 0x3EFF = 0x3F#8
      then { b with img := b.img.withSlot b.s14, ph := .placed } else { b with conflict := true, ph := .fail }) := by
  have hs := p.winHi_le_pmSize
  have hi := p.imgLen_eq
  have hread : b.memRead p Config.ckSlot 2 = .ok [b.img.read 0x3EFE, b.img.read 0x3EFF] :=
    Block.memRead_ok hp (by simp only [Config.ckSlot]; omega)
  simp only [slotBody, bind, Except.bind, hread]
  by_cases hsl : b.img.read 0x3EFE = 0xFF#8 ∧ b.img.read 0x3EFF = 0x3F#8
  · have hwrite := Block.memWrite_ok (b := b) (p := p) (a := Config.ckSlot) (bs := bytes16 (b.s14.setWidth 16))
      (by simp [bytes16, Config.ckSlot]; omega)
    simp only [hsl, and_self, if_true, hwrite, Memory.withSlot, Config.ckSlot]
  · have hne : ¬([b.img.read 0x3EFE, b.img.read 0x3EFF] = [Config.fillEven, Config.fillOdd]) := by
      intro h; simp only [List.cons.injEq, and_true] at h; exact hsl h
    rw [if_neg hsl, if_neg hne]; rfl

theorem ok_bind {α β : Type} (a : α) (f : α → Except Fault β) : (Except.ok a >>= f) = f a := rfl

theorem placeBody_eq {b : Block} (p : Params) (hp : b.ph ≠ .rst) : placeBody p b = .ok (afterPlace p b) := by
  unfold placeBody afterPlace
  split_ifs with ho hsl
  · rfl
  · rw [scan_eq p hp, ok_bind, slotBody_eq (b := { b with s14 := windowSum p.ck14 b.img }) p hp, if_pos hsl]
  · rw [scan_eq p hp, ok_bind, slotBody_eq (b := { b with s14 := windowSum p.ck14 b.img }) p hp, if_neg hsl]

theorem length_suffixHeader (p : Params) : (suffixHeader p).length = 12 := rfl

theorem suffixBody_eq {b : Block} (p : Params) (hp : b.ph ≠ .rst) : suffixBody p b = .ok (afterSuffix p b) := by
  have hi := p.imgLen_eq
  have hhdr := Block.memWrite_ok (b := b) (p := p) (a := p.pmSize) (bs := suffixHeader p)
    (by rw [length_suffixHeader]; omega)
  have hcrc := Block.crcFrom_ok (b := { b with img := b.img.withHeader p }) (p := p) hp
    (n := p.pmSize + Config.hdrLen) (a := 0) (by simp only [Config.hdrLen]; omega) Config.crc32Seed
  have hsum : crc32Bytes Config.crc32Seed ((List.range (p.pmSize + Config.hdrLen)).map
      fun k => (b.img.withHeader p).read (0 + k)) = suffixCrc p b := by
    simp only [Nat.zero_add]
    rw [suffixCrc, prefixCrc_eq, Config.crc32Seed, Config.hdrLen]
  have hstore := Block.memWrite_ok (b := { b with img := b.img.withHeader p, c32 := suffixCrc p b }) (p := p)
    (a := p.pmSize + Config.hdrLen) (bs := bytes32 (suffixCrc p b)) (by simp [bytes32, Config.hdrLen]; omega)
  simp only [hsum] at hcrc
  simp only [Memory.withHeader] at hcrc hstore
  simp only [suffixBody, hhdr, bind, Except.bind, hcrc, crcResult_eq, hstore, afterSuffix, Memory.withCrc,
    Memory.withHeader, Config.hdrLen]

/-! ## The commands -/

/-- What an accepted command leaves and returns (R114 to R117, R134 to R137, R150 to R155, R170, R190, R194, R195). -/
def effect (p : Params) : Instr → Block → Block × Word
  | .nop, b        => (b, 0#32)
  | .fill, b       => ({ b with img := [], ph := .load }, 0#32)
  | .ldb a v, b    =>
    (if 0x0400 ≤ a.toNat ∧ a.toNat < 0x8000 then { b with img := b.img.write a.toNat v } else { b with oob := true }, 0#32)
  | .place, b      => (afterPlace p b, 0#32)
  | .suffix, b     => (afterSuffix p b, 0#32)
  | .run, b        => (if (afterPlace p b).ph = .placed then afterSuffix p (afterPlace p b) else afterPlace p b, 0#32)
  | .outb a, b     => (b, (b.img.read a.toNat).setWidth 32)
  | .rdst, b       => (b, b.status)
  | .ck14clr, b    => ({ b with s14 := 0#14 }, 0#32)
  | .ck14add a, b  => ({ b with s14 := ck14Word p.ck14 b.s14 a }, 0#32)
  | .ck14mem a, b  => ({ b with s14 := ck14Word p.ck14 b.s14 (b.img.word a.toNat) }, 0#32)
  | .rdck14, b     => (b, b.s14.setWidth 32)
  | .crc32seed, b  => ({ b with c32 := 0xFFFFFFFF#32 }, 0#32)
  | .crc32b v, b   => ({ b with c32 := crc32Byte b.c32 v }, 0#32)
  | .crc32mem a, b => ({ b with c32 := crc32Byte b.c32 (b.img.read a.toNat) }, 0#32)
  | .rdcrc32, b    => (b, b.c32)

/-- What any command leaves and returns: refused in a phase that does not allow it, refused with an illegal operand, or executed. -/
def after (p : Params) (i : Instr) (b : Block) : Block × Word :=
  if phaseAllows i b.ph = true then
    if operandLegal p i = true then effect p i b else (b.raiseIllcmd, 0#32)
  else (b.raiseSeqerr, 0#32)

theorem afterPlace_ph_ne_rst (p : Params) (b : Block) : (afterPlace p b).ph ≠ .rst := by
  unfold afterPlace; split_ifs <;> simp

/-! ## What `PLACE` and `SUFFIX` leave as it was -/

@[simp] theorem afterPlace_c32 (p : Params) (b : Block) : (afterPlace p b).c32 = b.c32 := by
  unfold afterPlace; split_ifs <;> rfl
@[simp] theorem afterPlace_oob (p : Params) (b : Block) : (afterPlace p b).oob = b.oob := by
  unfold afterPlace; split_ifs <;> rfl
@[simp] theorem afterPlace_seqerr (p : Params) (b : Block) : (afterPlace p b).seqerr = b.seqerr := by
  unfold afterPlace; split_ifs <;> rfl
@[simp] theorem afterPlace_illcmd (p : Params) (b : Block) : (afterPlace p b).illcmd = b.illcmd := by
  unfold afterPlace; split_ifs <;> rfl

@[simp] theorem afterSuffix_s14 (p : Params) (b : Block) : (afterSuffix p b).s14 = b.s14 := rfl
@[simp] theorem afterSuffix_c32 (p : Params) (b : Block) : (afterSuffix p b).c32 = suffixCrc p b := rfl
@[simp] theorem afterSuffix_oob (p : Params) (b : Block) : (afterSuffix p b).oob = b.oob := rfl
@[simp] theorem afterSuffix_conflict (p : Params) (b : Block) : (afterSuffix p b).conflict = b.conflict := rfl
@[simp] theorem afterSuffix_ph (p : Params) (b : Block) : (afterSuffix p b).ph = .done := rfl
@[simp] theorem afterSuffix_seqerr (p : Params) (b : Block) : (afterSuffix p b).seqerr = b.seqerr := rfl
@[simp] theorem afterSuffix_illcmd (p : Params) (b : Block) : (afterSuffix p b).illcmd = b.illcmd := rfl

/-! ## The image after `PLACE` and `SUFFIX` -/

theorem Memory.read_withSlot_lo (m : Memory) (x : Acc14) : (m.withSlot x).read 0x3EFE = x.extractLsb' 0 8 := by
  have h := Memory.read_writeBytes_inside (bytes16 (x.setWidth 16)) m 0x3EFE 0 (by simp [bytes16])
  rw [Memory.withSlot]
  simp only [Nat.add_zero] at h
  rw [h]
  refine BitVec.eq_of_getLsbD_eq fun k hk => ?_
  simp [bytes16, hk]; omega

theorem Memory.read_withSlot_hi (m : Memory) (x : Acc14) : (m.withSlot x).read 0x3EFF = 0#2 ++ x.extractLsb' 8 6 := by
  have h := Memory.read_writeBytes_inside (bytes16 (x.setWidth 16)) m 0x3EFE 1 (by simp [bytes16])
  rw [Memory.withSlot, show (0x3EFF : Nat) = 0x3EFE + 1 from rfl, h]
  refine BitVec.eq_of_getLsbD_eq (w := 8) fun k hk => ?_
  show _ = BitVec.getLsbD (w := 2 + 6) (0#2 ++ x.extractLsb' 8 6) k
  rw [BitVec.getLsbD_append]
  by_cases h6 : k < 6
  · simp [bytes16, hk, h6]; omega
  · simp [bytes16, hk, h6, BitVec.getLsbD_of_ge x (8 + k) (show 14 ≤ 8 + k by omega)]

theorem Memory.read_withSlot_other (m : Memory) (x : Acc14) {a : Nat} (h : a ≠ 0x3EFE) (h' : a ≠ 0x3EFF) :
    (m.withSlot x).read a = m.read a := by
  rw [Memory.withSlot, Memory.read_writeBytes_outside _ _ (by simp [bytes16]; omega)]

theorem Memory.read_withHeader_outside (m : Memory) (p : Params) {a : Nat} (h : a < p.pmSize ∨ p.pmSize + 12 ≤ a) :
    (m.withHeader p).read a = m.read a := by
  rw [Memory.withHeader, Memory.read_writeBytes_outside _ _ (by rw [length_suffixHeader]; exact h)]

/-- A header byte. -/
theorem Memory.read_withHeader (m : Memory) (p : Params) (k : Nat) (h : k < 12) :
    (m.withHeader p).read (p.pmSize + k) = (suffixHeader p)[k]'(by rw [length_suffixHeader]; exact h) := by
  rw [Memory.withHeader, Memory.read_writeBytes_inside _ _ _ _ (by rw [length_suffixHeader]; exact h)]

theorem Memory.read_withCrc_outside (m : Memory) (p : Params) (c : Word) {a : Nat}
    (h : a < p.pmSize + 12 ∨ p.pmSize + 16 ≤ a) : (m.withCrc p c).read a = m.read a := by
  rw [Memory.withCrc, Memory.read_writeBytes_outside _ _ (by simp [bytes32]; omega)]

/-- The CRC field. -/
theorem Memory.word32At_withCrc (m : Memory) (p : Params) (c : Word) : (m.withCrc p c).Word32At (p.pmSize + 12) c := by
  have h : ∀ k (hk : k < 4), (m.withCrc p c).read (p.pmSize + 12 + k) = (bytes32 c)[k]'hk := fun k hk => by
    rw [Memory.withCrc, Memory.read_writeBytes_inside (bytes32 c) _ _ k (show k < (bytes32 c).length from hk)]; rfl
  exact ⟨h 0 (by omega), h 1 (by omega), h 2 (by omega), h 3 (by omega)⟩

theorem read_afterSuffix_before (p : Params) (b : Block) {a : Nat} (h : a < p.pmSize + 12) :
    (afterSuffix p b).img.read a = (b.img.withHeader p).read a :=
  Memory.read_withCrc_outside _ _ _ (.inl h)

theorem read_afterSuffix_outside (p : Params) (b : Block) {a : Nat} (h : a < p.pmSize ∨ p.pmSize + 16 ≤ a) :
    (afterSuffix p b).img.read a = b.img.read a := by
  rw [afterSuffix, Memory.read_withCrc_outside _ _ _ (by omega), Memory.read_withHeader_outside _ _ (by omega)]

/-- `PLACE` keeps the canonical form. -/
theorem wf_afterPlace (p : Params) (b : Block) (h : b.img.wf p.imgLen = true) : (afterPlace p b).img.wf p.imgLen = true := by
  have hs := p.winHi_le_pmSize
  have hi := p.imgLen_eq
  unfold afterPlace
  split_ifs
  · exact h
  · rw [Memory.withSlot]; exact Memory.wf_writeBytes _ h (by simp [bytes16]; omega)
  · exact h

/-- `SUFFIX` keeps the canonical form. -/
theorem wf_afterSuffix (p : Params) (b : Block) (h : b.img.wf p.imgLen = true) : (afterSuffix p b).img.wf p.imgLen = true := by
  have hi := p.imgLen_eq
  rw [afterSuffix, Memory.withCrc, Memory.withHeader]
  exact Memory.wf_writeBytes _ (Memory.wf_writeBytes _ h (by rw [length_suffixHeader]; omega)) (by simp [bytes32]; omega)

/-- The CRC of `SUFFIX` is the CRC of the image it leaves, up to the CRC field. -/
theorem suffixCrc_eq (p : Params) (b : Block) : suffixCrc p b = prefixCrc (afterSuffix p b).img (p.pmSize + 12) := by
  rw [suffixCrc, prefixCrc_congr fun a ha => (read_afterSuffix_before p b ha).symm]

theorem headerAt_afterSuffix (p : Params) (b : Block) : (afterSuffix p b).img.HeaderAt p.pmSize p := by
  have h : ∀ k (hk : k < 12), (afterSuffix p b).img.read (p.pmSize + k) =
      (suffixHeader p)[k]'(by rw [length_suffixHeader]; exact hk) := fun k hk => by
    rw [read_afterSuffix_before p b (by omega), Memory.read_withHeader _ _ k hk]
  exact ⟨h 0 (by omega), h 1 (by omega), h 2 (by omega), h 3 (by omega), h 4 (by omega), h 5 (by omega), h 6 (by omega),
    h 7 (by omega), h 8 (by omega), h 9 (by omega), h 10 (by omega), h 11 (by omega)⟩

theorem word32At_afterSuffix (p : Params) (b : Block) :
    (afterSuffix p b).img.Word32At (p.pmSize + 12) (suffixCrc p b) :=
  Memory.word32At_withCrc _ _ _

/-! ## The tests before the body -/

/-- The model's phase table is the spec's (R264). -/
theorem phaseAllows_iff (i : Instr) (ph : Phase) : phaseAllows i ph = true ↔ PhaseLegal i ph := by
  cases i <;> cases ph <;> simp [phaseAllows, PhaseLegal]

/-- The model's operand tests are the spec's (R88 list b). -/
theorem operandLegal_iff (p : Params) (i : Instr) : operandLegal p i = true ↔ OperandLegal p i := by
  cases i <;> simp [operandLegal, OperandLegal]

theorem after_outOfPhase {p : Params} {i : Instr} {b : Block} (h : ¬PhaseLegal i b.ph) :
    after p i b = (b.raiseSeqerr, 0#32) := by
  rw [after, if_neg (by rwa [phaseAllows_iff])]

theorem after_badOperand {p : Params} {i : Instr} {b : Block} (h : PhaseLegal i b.ph) (ho : ¬OperandLegal p i) :
    after p i b = (b.raiseIllcmd, 0#32) := by
  rw [after, if_pos (by rwa [phaseAllows_iff]), if_neg (by rwa [operandLegal_iff])]

theorem after_accepted {p : Params} {i : Instr} {b : Block} (h : PhaseLegal i b.ph) (ho : OperandLegal p i) :
    after p i b = effect p i b := by
  rw [after, if_pos (by rwa [phaseAllows_iff]), if_pos (by rwa [operandLegal_iff])]

/-- The three things any command does. -/
theorem after_cases (p : Params) (i : Instr) (b : Block) :
    (¬PhaseLegal i b.ph ∧ after p i b = (b.raiseSeqerr, 0#32)) ∨
    (PhaseLegal i b.ph ∧ ¬OperandLegal p i ∧ after p i b = (b.raiseIllcmd, 0#32)) ∨
    (PhaseLegal i b.ph ∧ OperandLegal p i ∧ after p i b = effect p i b) := by
  by_cases h : PhaseLegal i b.ph
  · by_cases ho : OperandLegal p i
    · exact .inr (.inr ⟨h, ho, after_accepted h ho⟩)
    · exact .inr (.inl ⟨h, ho, after_badOperand h ho⟩)
  · exact .inl ⟨h, after_outOfPhase h⟩

/-- A command whose body, once accepted, returns `effect p i b` returns `after p i b`. -/
theorem attempt_eq {p : Params} {i : Instr} {b : Block} {body : Except Fault (Block × Word)}
    (h : phaseAllows i b.ph = true → operandLegal p i = true → body = .ok (effect p i b)) :
    attempt p i b body = .ok (after p i b) := by
  unfold attempt after
  by_cases hp : phaseAllows i b.ph = true
  · by_cases ho : operandLegal p i = true
    · simp [hp, ho, h hp ho]
    · simp [hp, ho]
  · simp [hp]

theorem runLdb_eq (p : Params) (a : Half) (v : Byte) (b : Block) : runLdb p a v b = .ok (after p (.ldb a v) b) := by
  have hs := p.winHi_le_pmSize
  have hi := p.imgLen_eq
  refine attempt_eq fun _ _ => ?_
  by_cases hw : inWindow a = true
  · have hw' := (inWindow_iff a).mp hw
    rw [if_pos hw, Block.memWrite_ok (by simp; omega)]
    simp only [effect, if_pos hw']; rfl
  · rw [if_neg hw]
    simp only [effect, if_neg (fun h => hw ((inWindow_iff a).mpr h))]; rfl

theorem runPlace_eq (p : Params) (b : Block) : runPlace p b = .ok (after p .place b) := by
  refine attempt_eq fun hp _ => ?_
  rw [placeBody_eq p (by intro h; simp [phaseAllows, h] at hp)]; rfl

theorem runSuffix_eq (p : Params) (b : Block) : runSuffix p b = .ok (after p .suffix b) := by
  refine attempt_eq fun hp _ => ?_
  rw [suffixBody_eq p (by intro h; simp [phaseAllows, h] at hp)]; rfl

theorem runRun_eq (p : Params) (b : Block) : runRun p b = .ok (after p .run b) := by
  refine attempt_eq fun hp _ => ?_
  rw [placeBody_eq p (by intro h; simp [phaseAllows, h] at hp)]
  simp only [bind, Except.bind, effect]
  by_cases h : (afterPlace p b).ph = .placed
  · rw [if_pos h, if_pos h, suffixBody_eq p (afterPlace_ph_ne_rst p b)]
  · rw [if_neg h, if_neg h]

theorem runOutb_eq (p : Params) (a : Half) (b : Block) : runOutb p a b = .ok (after p (.outb a) b) := by
  refine attempt_eq fun hp ho => ?_
  rw [Block.readByte_ok (by intro h; simp [phaseAllows, h] at hp) (by simpa [operandLegal] using ho)]; rfl

theorem runCk14mem_eq (p : Params) (a : Half) (b : Block) : runCk14mem p a b = .ok (after p (.ck14mem a) b) := by
  refine attempt_eq fun hp ho => ?_
  have ho' : a.toNat % 2 = 0 ∧ a.toNat + 1 < p.imgLen := by simpa [operandLegal] using ho
  rw [Block.readWord_ok (by intro h; simp [phaseAllows, h] at hp) ho'.2]; rfl

theorem runCrc32mem_eq (p : Params) (a : Half) (b : Block) : runCrc32mem p a b = .ok (after p (.crc32mem a) b) := by
  refine attempt_eq fun hp ho => ?_
  rw [Block.readByte_ok (by intro h; simp [phaseAllows, h] at hp) (by simpa [operandLegal] using ho)]; rfl

theorem runRdcrc32_eq (p : Params) (b : Block) : runRdcrc32 p b = .ok (after p .rdcrc32 b) :=
  attempt_eq fun _ _ => by rw [crcResult_eq]; rfl

/-- Every command returns, from every block, and this. -/
theorem execute_eq (p : Params) (i : Instr) (b : Block) : execute p i b = .ok (after p i b) := by
  cases i with
  | ldb a v => exact runLdb_eq p a v b
  | place => exact runPlace_eq p b
  | suffix => exact runSuffix_eq p b
  | run => exact runRun_eq p b
  | outb a => exact runOutb_eq p a b
  | ck14mem a => exact runCk14mem_eq p a b
  | crc32mem a => exact runCrc32mem_eq p a b
  | rdcrc32 => exact runRdcrc32_eq p b
  | nop => exact attempt_eq (i := .nop) fun _ _ => rfl
  | fill => exact attempt_eq (i := .fill) fun _ _ => rfl
  | rdst => exact attempt_eq (i := .rdst) fun _ _ => rfl
  | ck14clr => exact attempt_eq (i := .ck14clr) fun _ _ => rfl
  | ck14add a => exact attempt_eq (i := .ck14add a) fun _ _ => rfl
  | rdck14 => exact attempt_eq (i := .rdck14) fun _ _ => rfl
  | crc32seed => exact attempt_eq (i := .crc32seed) fun _ _ => rfl
  | crc32b a => exact attempt_eq (i := .crc32b a) fun _ _ => rfl

/-- A meaning delivers what the command returns on the block. -/
theorem exec_eq_settle (i : Instr) (s : State) : exec i s = settle s (execute s.params i s.toBlock) := by
  cases i <;> rfl

/-- Every command answers a next state, from every state, and this one. -/
theorem exec_eq (i : Instr) (s : State) : exec i s = .next (s.deliver (after s.params i s.toBlock)) := by
  rw [exec_eq_settle, execute_eq, settle]

/-- What the block returns for a command word. -/
theorem transact_eq (p : Params) (c : Word) (b : Block) :
    transact p c b = .ok (match decode c with | some i => after p i b | none => (b.raiseIllcmd, 0#32)) := by
  unfold transact
  cases decode c with
  | some i => exact execute_eq p i b
  | none => rfl

theorem exec_next {i : Instr} {s t : State} (h : exec i s = .next t) : t = s.deliver (after s.params i s.toBlock) := by
  rw [exec_eq] at h; cases h; rfl

theorem exec_accepted {i : Instr} {s : State} (h : PhaseLegal i s.ph) (ho : OperandLegal s.params i) :
    exec i s = .next (s.deliver (effect s.params i s.toBlock)) := by
  rw [exec_eq, after_accepted h ho]

theorem exec_outOfPhase {i : Instr} {s : State} (h : ¬PhaseLegal i s.ph) :
    exec i s = .next (s.deliver (s.toBlock.raiseSeqerr, 0#32)) := by
  rw [exec_eq, after_outOfPhase h]

theorem exec_badOperand {i : Instr} {s : State} (h : PhaseLegal i s.ph) (ho : ¬OperandLegal s.params i) :
    exec i s = .next (s.deliver (s.toBlock.raiseIllcmd, 0#32)) := by
  rw [exec_eq, after_badOperand h ho]

/-- What no accepted command touches. -/
theorem effect_frame (p : Params) (i : Instr) (b : Block) :
    (effect p i b).1.seqerr = b.seqerr ∧ (effect p i b).1.illcmd = b.illcmd := by
  cases i <;> simp [effect] <;> split_ifs <;> simp

/-- A step with a command word presented delivers what the block returns for it. -/
theorem step_command {s : State} {c : Word} {rest : List HostEvent} (h : s.port = .command c :: rest) :
    step s = settle { s with port := rest } (transact s.params c s.toBlock) := by
  unfold step transact
  rw [h]
  simp only
  cases decode c with
  | some i => exact exec_eq_settle i { s with port := rest }
  | none => rfl

/-- Everything a step can do. -/
theorem step_cases {s t : State} (h : step s = .next t) :
    (s.port = [] ∧ t = { s with resp := none }) ∨
    (∃ rest, s.port = .reset :: rest ∧ t = s.resetEvent rest) ∨
    (∃ c rest i, s.port = .command c :: rest ∧ decode c = some i ∧
      t = State.deliver { s with port := rest } (after s.params i s.toBlock)) ∨
    (∃ c rest, s.port = .command c :: rest ∧ decode c = none ∧
      t = State.deliver { s with port := rest } (s.toBlock.raiseIllcmd, 0#32)) := by
  rcases hp : s.port with _ | ⟨_ | _, rest⟩
  · rw [step, hp] at h; cases h; exact .inl ⟨rfl, rfl⟩
  · rename_i c
    rw [step_command hp, transact_eq] at h
    cases h
    cases hd : decode c with
    | some i => exact .inr (.inr (.inl ⟨c, rest, i, rfl, hd, rfl⟩))
    | none => exact .inr (.inr (.inr ⟨c, rest, rfl, hd, rfl⟩))
  · rw [step, hp] at h; cases h; exact .inr (.inl ⟨rest, rfl, rfl⟩)

end Sys2Proof.Machine
end

