-- ==== Sys2Proof/Laws/PerInstr.lean ====
section
/-! SUPPORT. Facts of every command as syntax, one lemma per constructor of `Instr`. -/

namespace Sys2Proof.Laws.EncodedLegally

/-- The encoded command is a legal word: it matches a row of the opcode map (R81, R87), and its opcode field is the command's. -/
def Statement (i : Instr) : Prop := wordWellFormed (encode i) = true ∧ opField (encode i) = i.opcode

/-- The word has the mask bits of its row when its fields have them. -/
theorem and_mask_ab (op : Byte) (a : Half) (b : Byte) : (op ++ a ++ b) &&& 0xFF000000#32 = op ++ 0#16 ++ 0#8 := by
  refine BitVec.eq_of_getLsbD_eq fun k hk => ?_
  rw [BitVec.getLsbD_and, getLsbD_fields, getLsbD_fields,
    show (0xFF000000#32) = (0xFF#8 ++ 0#16 ++ 0#8 : Word) from rfl, getLsbD_fields]
  by_cases h1 : k < 8
  · simp [h1]
  · by_cases h2 : k < 24
    · simp [h1, h2]
    · rw [← show op &&& 0xFF#8 = op from BitVec.and_allOnes]; simp [h1, h2]

theorem and_mask_a (op : Byte) (a : Half) : (op ++ a ++ 0#8) &&& 0xFF0000FF#32 = op ++ 0#16 ++ 0#8 := by
  refine BitVec.eq_of_getLsbD_eq fun k hk => ?_
  rw [BitVec.getLsbD_and, getLsbD_fields, getLsbD_fields,
    show (0xFF0000FF#32) = (0xFF#8 ++ 0#16 ++ 0xFF#8 : Word) from rfl, getLsbD_fields]
  by_cases h1 : k < 8
  · simp [h1]
  · by_cases h2 : k < 24
    · simp [h1, h2]
    · rw [← show op &&& 0xFF#8 = op from BitVec.and_allOnes]; simp [h1, h2]

theorem and_mask_b (op : Byte) (b : Byte) : (op ++ 0#16 ++ b) &&& 0xFFFFFF00#32 = op ++ 0#16 ++ 0#8 := by
  refine BitVec.eq_of_getLsbD_eq fun k hk => ?_
  rw [BitVec.getLsbD_and, getLsbD_fields, getLsbD_fields,
    show (0xFFFFFF00#32) = (0xFF#8 ++ 0xFFFF#16 ++ 0#8 : Word) from rfl, getLsbD_fields]
  by_cases h1 : k < 8
  · simp [h1]
  · by_cases h2 : k < 24
    · simp [h1, h2]
    · rw [← show op &&& 0xFF#8 = op from BitVec.and_allOnes]; simp [h1, h2]

/-- A row that the word matches makes it a legal word. -/
theorem statement_of_row {i : Instr} (r : Row) (hr : r ∈ rows) (h : encode i &&& r.format.mask = r.pattern) : Statement i :=
  ⟨List.any_eq_true.mpr ⟨r, hr, by simpa [Row.matchesWord] using h⟩, opField_encode i⟩

theorem nop : Statement .nop := by unfold Statement; decide
theorem fill : Statement .fill := by unfold Statement; decide
theorem place : Statement .place := by unfold Statement; decide
theorem suffix : Statement .suffix := by unfold Statement; decide
theorem run : Statement .run := by unfold Statement; decide
theorem rdst : Statement .rdst := by unfold Statement; decide
theorem ck14clr : Statement .ck14clr := by unfold Statement; decide
theorem rdck14 : Statement .rdck14 := by unfold Statement; decide
theorem crc32seed : Statement .crc32seed := by unfold Statement; decide
theorem rdcrc32 : Statement .rdcrc32 := by unfold Statement; decide

theorem ldb (a : Half) (b : Byte) : Statement (.ldb a b) :=
  statement_of_row ⟨.ab, 0x02000000#32⟩ (by decide) (by rw [encode_eq_append]; exact and_mask_ab 0x02#8 a b)

theorem outb (a : Half) : Statement (.outb a) :=
  statement_of_row ⟨.a, 0x06000000#32⟩ (by decide) (by rw [encode_eq_append]; exact and_mask_a 0x06#8 a)

theorem ck14add (a : Half) : Statement (.ck14add a) :=
  statement_of_row ⟨.a, 0x11000000#32⟩ (by decide) (by rw [encode_eq_append]; exact and_mask_a 0x11#8 a)

theorem ck14mem (a : Half) : Statement (.ck14mem a) :=
  statement_of_row ⟨.a, 0x12000000#32⟩ (by decide) (by rw [encode_eq_append]; exact and_mask_a 0x12#8 a)

theorem crc32mem (a : Half) : Statement (.crc32mem a) :=
  statement_of_row ⟨.a, 0x22000000#32⟩ (by decide) (by rw [encode_eq_append]; exact and_mask_a 0x22#8 a)

theorem crc32b (b : Byte) : Statement (.crc32b b) :=
  statement_of_row ⟨.b, 0x21000000#32⟩ (by decide) (by rw [encode_eq_append]; exact and_mask_b 0x21#8 b)

end Sys2Proof.Laws.EncodedLegally
end

