-- ==== Sys2Proof/Tests/Slice0.lean ====
section
/-! SUPPORT. Tests: values the spec prints (95_test_vectors.md, cited as "TV"), words written out from 30_encoding.md, and for each
statement with hypotheses concrete inputs that meet them. -/

open Sys2Proof Sys2Proof.Machine

namespace Sys2Proof.Tests

/-! ## Small states -/

/-- The example instance of TV: `PM_SIZE = 0x8000`, VID `0x1234`, PID `0x5678`. -/
def build (v : Ck14Variant) : Params := { pmExtra := 0, usbVid := 0x1234#16, usbPid := 0x5678#16, ck14 := v }

/-- The example instance in a phase, everything else as after reset and `FILL`. -/
def blk (ph : Phase) : State :=
  { img := [], s14 := 0x0000#14, c32 := 0xFFFFFFFF#32, oob := false, conflict := false, ph := ph, seqerr := false,
    illcmd := false, params := build .v1, port := [], resp := none }

/-- The same with another variant of CK14. -/
def blkOf (v : Ck14Variant) : State := { blk .load with params := build v }

/-- A field of the next state. -/
def after? {α : Type} (o : Host.Outcome State Fault Refusal) (f : State → α) : Option α :=
  match o with
  | .next t => some (f t)
  | _       => none

/-! ## Ill-formed words (R87, R88 list a): one for each check -/

theorem test_wf_unassigned_opcode : wordWellFormed 0x08000000#32 = false ∧ wordWellFormed 0xFF000000#32 = false := by decide
theorem test_wf_z_reserved_a : wordWellFormed 0x01000100#32 = false := by decide
theorem test_wf_z_reserved_b : wordWellFormed 0x01000001#32 = false := by decide
theorem test_wf_a_reserved_b : wordWellFormed 0x06000001#32 = false := by decide
theorem test_wf_b_reserved_a : wordWellFormed 0x21000100#32 = false := by decide
theorem test_wf_accepts : wordWellFormed 0x02FFFFFF#32 = true ∧ wordWellFormed 0x06FFFF00#32 = true ∧
    wordWellFormed 0x210000FF#32 = true ∧ wordWellFormed 0x23000000#32 = true := by decide
theorem test_decode_refuses : decode 0x08000000#32 = none ∧ decode 0x01000100#32 = none ∧ decode 0x01000001#32 = none ∧
    decode 0x06000001#32 = none ∧ decode 0x21000100#32 = none := by decide

/-! ## Decoding: a word of every row, from R80, R81, R82: `OP` in bits 31:24, `A` in 23:8, `B` in 7:0 -/

theorem test_decode_nop : decode 0x00000000#32 = some .nop := by decide
theorem test_decode_fill : decode 0x01000000#32 = some .fill := by decide
theorem test_decode_ldb : decode 0x023EFF28#32 = some (.ldb 0x3EFF#16 0x28#8) := by decide
theorem test_decode_place : decode 0x03000000#32 = some .place := by decide
theorem test_decode_suffix : decode 0x04000000#32 = some .suffix := by decide
theorem test_decode_run : decode 0x05000000#32 = some .run := by decide
theorem test_decode_outb : decode 0x06800C00#32 = some (.outb 0x800C#16) := by decide
theorem test_decode_rdst : decode 0x07000000#32 = some .rdst := by decide
theorem test_decode_ck14clr : decode 0x10000000#32 = some .ck14clr := by decide
theorem test_decode_ck14add : decode 0x11000100#32 = some (.ck14add 0x0001#16) := by decide
theorem test_decode_ck14mem : decode 0x12800E00#32 = some (.ck14mem 0x800E#16) := by decide
theorem test_decode_rdck14 : decode 0x13000000#32 = some .rdck14 := by decide
theorem test_decode_crc32seed : decode 0x20000000#32 = some .crc32seed := by decide
theorem test_decode_crc32b : decode 0x21000039#32 = some (.crc32b 0x39#8) := by decide
theorem test_decode_crc32mem : decode 0x22000100#32 = some (.crc32mem 0x0001#16) := by decide
theorem test_decode_rdcrc32 : decode 0x23000000#32 = some .rdcrc32 := by decide
theorem test_encode : encode (.ldb 0x3EFF#16 0x28#8) = 0x023EFF28#32 ∧ encode (.outb 0x800C#16) = 0x06800C00#32 ∧
    encode (.crc32b 0x39#8) = 0x21000039#32 ∧ encode .run = 0x05000000#32 := by decide

/-! ## Assembler (R96, R97) -/

theorem test_assemble_ldb : assembleLine "LDB     0x0400, 0x00   ; a comment".toList = some [.ldb 0x0400#16 0x00#8] := by decide
theorem test_assemble_decimal : assembleLine "CK14ADD 16383".toList = some [.ck14add 0x3FFF#16] := by decide
theorem test_assemble_ldw : assembleLine "LDW 0x3EFC, 0x1234".toList =
    some [.ldb 0x3EFC#16 0x34#8, .ldb 0x3EFD#16 0x12#8] := by decide
theorem test_assemble_rejects : assembleLine "LDB 0x0400".toList = none ∧ assembleLine "CRC32B 256".toList = none ∧
    assembleLine "HALT".toList = none ∧ assembleLine "LDW 0xFFFF, 0".toList = none := by decide

/-! ## CK14 (TV 2.1, 2.2) -/

theorem test_ck14_v1 : ck14Word .v1 0x0000#14 0x8000#16 = 0x24D3#14 ∧ ck14Word .v1 0x24D3#14 0x0000#16 = 0x1E25#14 ∧
    ck14Word .v1 0x1234#14 0x5678#16 = 0x2DF8#14 ∧ ck14Word .v1 0x3FFF#14 0x3FFF#16 = 0x33B4#14 := by decide
theorem test_ck14_v2 : ck14Word .v2 0x0000#14 0x0001#16 = 0x23B1#14 ∧ ck14Word .v2 0x0000#14 0x4000#16 = 0x3E6A#14 ∧
    ck14Word .v2 0x1234#14 0x5678#16 = 0x2947#14 ∧ ck14Word .v2 0x3FFF#14 0x3FFF#16 = 0x266D#14 := by decide
theorem test_ck14_v3 : ck14Word .v3 0x0000#14 0x0001#16 = 0x2614#14 ∧ ck14Word .v3 0x0000#14 0x8000#16 = 0x23B1#14 ∧
    ck14Word .v3 0x1234#14 0x5678#16 = 0x2438#14 ∧ ck14Word .v3 0x3FFF#14 0x3FFF#16 = 0x0000#14 := by decide
theorem test_ck14_order : ck14Seq .v1 0#14 [0x0001#16, 0x0002#16] = 0x2A15#14 ∧
    ck14Seq .v1 0#14 [0x0002#16, 0x0001#16] = 0x379E#14 := by decide

/-- R112: the recurrences of R110 and R113 meet it and give TV's values. -/
theorem test_ck14_recurrences : Ck14Recurrence.v1.meetsR112 = true ∧ Ck14Recurrence.v2.meetsR112 = true ∧
    Ck14Recurrence.v3.meetsR112 = true ∧ Ck14Recurrence.v1.apply 0x1234#14 0x5678#16 = 0x2DF8#14 ∧
    Ck14Recurrence.v2.apply 0x1234#14 0x5678#16 = 0x2947#14 ∧ Ck14Recurrence.v3.apply 0x1234#14 0x5678#16 = 0x2438#14 := by
  decide +kernel

/-- R112: admitted are also `V1` with the register XORed onto itself, and eight steps of `V2` after eight of `V1`. -/
theorem test_ck14_admissible :
    Ck14Recurrence.meetsR112 { steps := Ck14Recurrence.v1.steps.map fun e => { e with plusSelf := true } } = true ∧
    Ck14Recurrence.meetsR112 { steps := Vector.ofFn fun k =>
      if k.val < 8 then Ck14Recurrence.v1.steps.get k else Ck14Recurrence.v2.steps.get k } = true := by decide +kernel

/-- R112: refused are `V1` without the constant, with a constant that never comes to be XORed in, with another constant (0x1021) on the
input bit (c), and with input bits lost (b). -/
theorem test_ck14_inadmissible :
    Ck14Recurrence.meetsR112 { steps := Ck14Recurrence.v1.steps.map fun e => { e with fold := [] } } = false ∧
    Ck14Recurrence.meetsR112 { steps := Ck14Recurrence.v1.steps.map fun e => { e with fold := [.state 15] } } = false ∧
    Ck14Recurrence.meetsR112 { steps := Ck14Recurrence.v1.steps.map fun e =>
      { e with shiftIn := e.shiftIn.flatMap fun i => [⟨i.word, 0⟩, ⟨i.word, 5⟩, ⟨i.word, 12⟩] } } = false ∧
    Ck14Recurrence.meetsR112 { steps := Ck14Recurrence.v1.steps.map fun e => { e with shift := .right } } = false := by
  decide +kernel

/-! ## CRC-32 (TV 2.3) -/

theorem test_t32 : t32 0x01#8 = 0x77073096#32 ∧ t32 0x80#8 = 0xEDB88320#32 ∧ t32 0xFF#8 = 0x2D02EF8D#32 := by decide
theorem test_crc32_check : crc32Bytes 0xFFFFFFFF#32
    [0x31#8, 0x32#8, 0x33#8, 0x34#8, 0x35#8, 0x36#8, 0x37#8, 0x38#8, 0x39#8] = 0x340BC6D9#32 := by decide +kernel
theorem test_crc32_short : crc32Bytes 0xFFFFFFFF#32 [] = 0xFFFFFFFF#32 ∧ crc32Bytes 0xFFFFFFFF#32 [0x00#8] = 0x2DFD1072#32 ∧
    crc32Bytes 0xFFFFFFFF#32 [0xFF#8, 0x3F#8] = 0x9B643D4F#32 ∧
    crc32Bytes 0xFFFFFFFF#32 [0x55#8, 0x46#8, 0x44#8] = 0xBD5BA7BC#32 := by decide

/-! ## One step of each command -/

/-- TV 2.7: `NOP` after reset. -/
theorem test_nop : after? (exec .nop (blk .rst)) id = some { blk .rst with resp := some 0#32 } := by decide
/-- TV 2.4: `FILL` after reset. -/
theorem test_fill : after? (exec .fill (blk .rst)) (fun t => (t.ph, t.img.read 0x0400, t.img.read 0x0401, t.status)) =
    some (.load, 0xFF#8, 0x3F#8, 0x00000001#32) := by decide
/-- TV 2.7: a second `FILL`. -/
theorem test_fill_twice : after? (exec .fill (blk .load)) (·.status) = some 0x00000041#32 := by decide
/-- TV 2.4: the edges of the load window, inside. -/
theorem test_ldb_inside : after? (exec (.ldb 0x0400#16 0xAB#8) (blk .load)) (fun t => (t.img.read 0x0400, t.oob)) =
      some (0xAB#8, false) ∧
    after? (exec (.ldb 0x7FFF#16 0xAB#8) (blk .load)) (fun t => (t.img.read 0x7FFF, t.oob)) = some (0xAB#8, false) := by
  decide
/-- TV 2.4: the edges of the load window, outside. -/
theorem test_ldb_outside : after? (exec (.ldb 0x03FF#16 0xAB#8) (blk .load)) (fun t => (t.img.read 0x03FF, t.status)) =
      some (0x3F#8, 0x00000011#32) ∧
    after? (exec (.ldb 0x8000#16 0xAB#8) (blk .load)) (fun t => (t.img.read 0x8000, t.oob)) = some (0xFF#8, true) := by
  decide
/-- TV 2.5: `PLACE` on the erased image. -/
theorem test_place_erased : after? (exec .place (blk .load)) (fun t => (t.s14, t.ph, t.img.read 0x3EFE, t.img.read 0x3EFF)) =
    some (0x3870#14, .placed, 0x70#8, 0x38#8) := by decide +kernel
/-- TV P2: `PLACE` with `OOB` set fails, with no scan; TV P3: after the scan, the slot test. -/
theorem test_place_fails : after? (exec .place { blk .load with oob := true }) (fun t => (t.status, t.s14)) =
      some (0x00000014#32, 0x0000#14) ∧
    (slotBody (build .v1) { (blk .load).toBlock with s14 := 0x3870#14, img := [(0x3EFE, 0x00#8), (0x3EFF, 0x28#8)] }).toOption.map
      (fun b => (b.status, b.s14, b.img)) = some (0x00000024#32, 0x3870#14, [(0x3EFE, 0x00#8), (0x3EFF, 0x28#8)]) := by decide
/-- TV 2.7: `SUFFIX` before `PLACE`. -/
theorem test_suffix_early : after? (exec .suffix (blk .load)) (fun t => (t.seqerr, t.ph)) = some (true, .load) := by decide
/-- TV 2.6: the header bytes. -/
theorem test_suffix_header : suffixHeader (build .v1) = [0xFF#8, 0xFF#8, 0x78#8, 0x56#8, 0x34#8, 0x12#8, 0x00#8, 0x01#8,
    0x55#8, 0x46#8, 0x44#8, 0x10#8] := by decide
/-- TV P2: `RUN` with `OOB` set. -/
theorem test_run_oob : after? (exec .run { blk .load with oob := true }) (fun t => (t.status, t.c32)) =
    some (0x00000014#32, 0xFFFFFFFF#32) := by decide
/-- TV 2.7: `RUN` again. -/
theorem test_run_again : after? (exec .run (blk .done)) (fun t => (t.seqerr, t.ph)) = some (true, .done) := by decide
/-- TV 2.7: `OUTB` at the last byte and past the end. -/
theorem test_outb_end : after? (exec (.outb 0x800F#16) { blk .done with img := [(0x800F, 0x39#8)] }) State.resp =
      some (some 0x00000039#32) ∧
    after? (exec (.outb 0x8010#16) (blk .done)) (fun t => (t.illcmd, t.resp)) = some (true, some 0#32) := by decide
/-- TV P2: `OUTB` in `FAIL`. -/
theorem test_outb_fail : after? (exec (.outb 0x0000#16) { blk .fail with oob := true }) (fun t => (t.resp, t.status)) =
    some (some 0#32, 0x00000054#32) := by decide
/-- TV P1 and P3: the status word. -/
theorem test_rdst : after? (exec .rdst (blk .done)) State.resp = some (some 0x00000103#32) ∧
    after? (exec .rdst { blk .fail with conflict := true }) State.resp = some (some 0x00000024#32) := by decide
theorem test_ck14clr : after? (exec .ck14clr { blk .rst with s14 := 0x2A15#14 }) (·.s14) = some 0x0000#14 := by decide
/-- TV P4: `CK14ADD` in `RST`. -/
theorem test_ck14add : after? (exec (.ck14add 0x0002#16) { blk .rst with s14 := 0x0001#14 }) (·.s14) = some 0x2A15#14 := by
  decide
/-- TV 2.7: `CK14MEM` at the last word, past the end, at an odd offset. -/
theorem test_ck14mem : after? (exec (.ck14mem 0x800E#16) (blk .load)) (·.s14) = some 0x3FFF#14 ∧
    after? (exec (.ck14mem 0x8010#16) (blk .load)) (·.illcmd) = some true ∧
    after? (exec (.ck14mem 0x0401#16) (blk .load)) (·.illcmd) = some true := by decide
/-- TV 2.7: `CK14MEM` in `RST`; TV P6 with `V3`. -/
theorem test_ck14mem_rst : after? (exec (.ck14mem 0x0400#16) (blk .rst)) (·.seqerr) = some true ∧
    after? (exec (.ck14mem 0x0402#16) { blkOf .v3 with s14 := 0x0C2B#14 }) (·.s14) = some 0x1482#14 := by decide
/-- TV P4. -/
theorem test_rdck14 : after? (exec .rdck14 { blk .rst with s14 := 0x379E#14 }) State.resp = some (some 0x0000379E#32) := by
  decide
theorem test_crc32seed : after? (exec .crc32seed { blk .rst with c32 := 0#32 }) (·.c32) = some 0xFFFFFFFF#32 := by decide
/-- TV P5. -/
theorem test_crc32b : after? (exec (.crc32b 0x32#8) { blk .rst with c32 := 0x7C231048#32 }) (·.c32) = some 0xB0ACBB32#32 := by
  decide
/-- TV P6 and 2.7. -/
theorem test_crc32mem : after? (exec (.crc32mem 0x0001#16) { blk .load with c32 := 0x00FFFFFF#32 }) (·.c32) =
      some 0x9B643D4F#32 ∧
    after? (exec (.crc32mem 0x8010#16) (blk .load)) (·.illcmd) = some true := by decide
/-- TV P5. -/
theorem test_rdcrc32 : after? (exec .rdcrc32 { blk .rst with c32 := 0x340BC6D9#32 }) State.resp = some (some 0x340BC6D9#32) := by
  decide

/-! ## Steps -/

/-- TV P4 and 2.7: what the block returns for `RDCK14` and for an illegal word. -/
theorem test_transact :
    transact (build .v1) 0x13000000#32 { (blk .rst).toBlock with s14 := 0x2A15#14 } =
      .ok ({ (blk .rst).toBlock with s14 := 0x2A15#14 }, 0x00002A15#32) ∧
    transact (build .v1) 0x08000000#32 (blk .rst).toBlock = .ok ({ (blk .rst).toBlock with illcmd := true }, 0#32) := by decide

/-- TV 2.7: an illegal word. -/
theorem test_step_illegal : after? (step { blk .rst with port := [.command 0x08000000#32] }) (·.status) =
    some 0x00000080#32 := by decide
theorem test_step_reset : after? (step { blk .fail with oob := true, port := [.reset] }) (fun t => (t.ph, t.oob)) =
    some (.rst, false) := by decide
/-- The first step with a word placed runs it. -/
theorem test_fetch_word : after? (step (State.withFetchWord (blk .rst) 32 0x01000000)) (fun t => (t.ph, t.port)) =
    some (.load, []) := by decide

/-! ## The hypotheses of the statements can be met: for each statement, and each of its clauses, inputs at the boundary -/

theorem test_hyp_EncodeInvertsDecode : decode 0x06801000#32 = some (.outb 0x8010#16) := by decide

theorem test_hyp_OpcodeRowsDoNotOverlap : (⟨.a, 0x11000000#32⟩ : Row) ∈ rows ∧
    0x11FFFF00#32 &&& Format.mask .a = 0x11000000#32 := by decide

theorem test_hyp_LdwLoadsALittleEndianWord :
    (expandLdw 0xFFFE#16 0x1234#16 = some [.ldb 0xFFFE#16 0x34#8, .ldb 0xFFFF#16 0x12#8] ∧ expandLdw 0xFFFF#16 0x1234#16 = none) ∧
    (expandLdw 0x0400#16 0xFFFF#16 = some [.ldb 0x0400#16 0xFF#8, .ldb 0x0401#16 0xFF#8] ∧ (blk .load).ph = .load ∧
      0x0400 ≤ (0x0400#16).toNat ∧ (0x0400#16).toNat + 1 < 0x8000) ∧
    (expandLdw 0x7FFE#16 0x1234#16 = some [.ldb 0x7FFE#16 0x34#8, .ldb 0x7FFF#16 0x12#8] ∧
      0x0400 ≤ (0x7FFE#16).toNat ∧ (0x7FFE#16).toNat + 1 < 0x8000) := by decide

theorem test_hyp_StepExecutesTheDecodedCommand :
    ({ blk .load with port := [.command 0x023EFE00#32, .reset] }).port = .command 0x023EFE00#32 :: [.reset] ∧
    decode 0x023EFE00#32 = some (.ldb 0x3EFE#16 0x00#8) := by decide

theorem test_hyp_ResetEventResetsEverything :
    ({ blk .fail with port := [.reset, .command 0x01000000#32] }).port = .reset :: [.command 0x01000000#32] := by decide

theorem test_hyp_IdlePortChangesNothing : (blk .done).port = [] := by decide

/-- Accepted, out of phase, an illegal operand, and an illegal word. -/
theorem test_hyp_EveryCommandRespondsAsTheTableSays :
    (PhaseLegal (.outb 0x800F#16) (blk .done).ph ∧ OperandLegal (blk .done).params (.outb 0x800F#16)) ∧
    ¬(PhaseLegal .fill (blk .load).ph ∧ OperandLegal (blk .load).params .fill) ∧
    ¬(PhaseLegal (.outb 0x8010#16) (blk .done).ph ∧ OperandLegal (blk .done).params (.outb 0x8010#16)) ∧
    ({ blk .rst with port := [.command 0x01000001#32] }).port = .command 0x01000001#32 :: [] ∧
    decode 0x01000001#32 = none := by
  refine ⟨?_, ?_, ?_, by decide, by decide⟩ <;> simp [PhaseLegal, OperandLegal, blk, build, Params.imgLen, Params.pmSize, Config.winHi, Config.suffixLen]

theorem test_hyp_OutOfPhaseCommandsAreRefused : ¬PhaseLegal .suffix (blk .load).ph ∧ PhaseLegal .suffix (blk .placed).ph ∧
    ¬PhaseLegal (.ck14mem 0#16) (blk .rst).ph ∧ PhaseLegal (.ck14mem 0#16) (blk .fail).ph := by
  simp [PhaseLegal, blk]

theorem test_hyp_IllegalEncodingsRaiseIllcmd :
    (({ blk .rst with port := [.command 0x08000000#32] }).port = .command 0x08000000#32 :: [] ∧
      ¬∃ r ∈ rows, 0x08000000#32 &&& r.format.mask = r.pattern) ∧
    ((blk .done).ph = .done ∧ (blk .done).params.imgLen ≤ (0x8010#16).toNat) ∧
    ((blk .load).ph ≠ .rst ∧ (blk .load).params.imgLen ≤ (0x8010#16).toNat) ∧
    ((blk .load).ph ≠ .rst ∧ (0x0401#16).toNat % 2 = 1) ∧
    ((blk .load).ph ≠ .rst ∧ (blk .load).params.imgLen ≤ (0x800F#16).toNat + 1) := by decide

theorem test_hyp_AtMostOneErrorPerCommand :
    (({ blk .done with port := [.command 0x06801000#32] }).port = .command 0x06801000#32 :: [] ∧
      after? (step { blk .done with port := [.command 0x06801000#32] }) id =
        some { blk .done with illcmd := true, resp := some 0#32 }) ∧
    (¬PhaseLegal (.outb 0xFFFF#16) (blk .load).ph ∧ ¬OperandLegal (blk .load).params (.outb 0xFFFF#16)) ∧
    (({ blk .load with port := [.command 0x06000001#32] }).port = .command 0x06000001#32 :: [] ∧ decode 0x06000001#32 = none) ∧
    (({ blk .load with oob := true, img := [(0x3EFE, 0x00#8)] }).ph = .load ∧
      ({ blk .load with oob := true, img := [(0x3EFE, 0x00#8)] }).oob = true ∧
      ¬({ blk .load with oob := true, img := [(0x3EFE, 0x00#8)] }).img.slotErased) ∧
    (blk .load).oob = false := by
  refine ⟨by decide, ?_, by decide, ⟨rfl, rfl, ?_⟩, rfl⟩
  · simp [PhaseLegal, OperandLegal, blk, build, Params.imgLen, Params.pmSize, Config.winHi, Config.suffixLen]
  · rintro ⟨h, -⟩; revert h; decide

theorem test_hyp_FillErasesTheImage : (blk .rst).ph = .rst ∧ 0x800F < (blk .rst).params.imgLen ∧ (blk .fail).ph ≠ .rst := by
  decide

theorem test_hyp_LoadInsideTheWindowWritesOneByte : (blk .load).ph = .load ∧
    (0x0400 ≤ (0x0400#16).toNat ∧ (0x0400#16).toNat < 0x8000) ∧ 0x0400 ≤ (0x7FFF#16).toNat ∧ (0x7FFF#16).toNat < 0x8000 := by
  decide

theorem test_hyp_LoadOutsideTheWindowSetsOob : (blk .load).ph = .load ∧ (0x03FF#16).toNat < 0x0400 ∧
    0x8000 ≤ (0x8000#16).toNat := by decide

theorem test_hyp_LoadByteTestsPhaseThenWindow : (blk .rst).ph ≠ .load ∧ (blk .load).ph = .load := by decide

theorem test_hyp_LoadedImageHoldsTheLastBytes : (blk .rst).ph = .rst ∧
    (∀ l ∈ [((0x0400#16 : Half), (0x11#8 : Byte)), (0x7FFF#16, 0x33#8), (0x0400#16, 0x22#8)],
      0x0400 ≤ l.1.toNat ∧ l.1.toNat < 0x8000) ∧ 0x7FFF < (blk .rst).params.imgLen := by
  refine ⟨rfl, fun l h => ?_, by decide⟩
  simp only [List.mem_cons, List.not_mem_nil, or_false] at h
  rcases h with rfl | rfl | rfl <;> decide

theorem test_hyp_PlaceFailsWhenOutOfBounds : ({ blk .load with oob := true }).ph = .load ∧
    ({ blk .load with oob := true }).oob = true := by decide

/-- Either byte of the slot is enough. -/
theorem test_hyp_PlaceDetectsAConflict : (blk .load).oob = false ∧
    (∀ m, m = [(0x3EFE, 0x00#8)] ∨ m = [(0x3EFF, 0x00#8)] →
      ({ blk .load with img := m }).ph = .load ∧ ({ blk .load with img := m }).oob = false ∧
      ¬(({ blk .load with img := m }).img.read 0x3EFE = 0xFF#8 ∧ ({ blk .load with img := m }).img.read 0x3EFF = 0x3F#8)) := by
  refine ⟨by decide, ?_⟩
  rintro m (rfl | rfl) <;> decide

theorem test_hyp_PlaceStoresTheChecksum : (blk .load).ph = .load ∧ (blk .load).oob = false ∧
    (blk .load).img.read 0x3EFE = 0xFF#8 ∧ (blk .load).img.read 0x3EFF = 0x3F#8 ∧
    (blk .placed).ph = .placed ∧ (blk .done).ph = .done ∧ (blk .fail).ph = .fail ∧ 0x7FFF < (blk .done).params.pmSize := by decide

/-- Images that differ just below the window and in the slot. -/
theorem test_hyp_PlaceSumsTheWindow :
    (blk .load).ph = .load ∧ (blk .load).oob = false ∧
    ({ blk .load with img := [(0x03FF, 0x00#8), (0x3EFE, 0x00#8)] }).ph = .load ∧
    ({ blk .load with img := [(0x03FF, 0x00#8), (0x3EFE, 0x00#8)] }).oob = false ∧
    ({ blk .load with img := [(0x03FF, 0x00#8), (0x3EFE, 0x00#8)] }).params.ck14 = (blk .load).params.ck14 ∧
    ∀ a, 0x0400 ≤ a → a < 0x3EFE →
      (blk .load).img.read a = ({ blk .load with img := [(0x03FF, 0x00#8), (0x3EFE, 0x00#8)] }).img.read a := by
  refine ⟨rfl, rfl, rfl, rfl, rfl, fun a h h' => ?_⟩
  simp [blk, Memory.read_cons, show a ≠ 0x03FF by omega, show a ≠ 0x3EFE by omega]

theorem test_hyp_SuffixWritesHeaderAndCrc : (blk .placed).ph = .placed ∧ (blk .load).ph ≠ .placed ∧ (blk .done).ph ≠ .placed := by
  decide

theorem test_hyp_RunIsPlaceThenSuffix : (blk .load).ph = .load ∧ (blk .rst).ph ≠ .load ∧ (blk .placed).ph ≠ .load := by decide

theorem test_hyp_RunEndStates : (blk .load).ph = .load ∧ ({ blk .load with oob := true }).oob = true ∧ (blk .load).oob = false ∧
    (blk .load).img.slotErased ∧ ¬({ blk .load with img := [(0x3EFF, 0x00#8)] }).img.slotErased := by
  refine ⟨rfl, rfl, rfl, ⟨rfl, rfl⟩, ?_⟩
  rintro ⟨-, h⟩; revert h; decide

theorem test_hyp_OutbReturnsOneByte : (blk .done).ph = .done ∧ (0x800F#16).toNat < (blk .done).params.imgLen ∧
    (blk .fail).ph ≠ .done ∧ (blk .done).params.imgLen ≤ (0x8010#16).toNat := by decide

theorem test_hyp_OutputOnlyWhenDone : (blk .done).ph = .done ∧ 0x800F < (blk .done).params.imgLen ∧ (blk .placed).ph ≠ .done := by
  decide

/-- Two states with different accumulators, sticky bits and last response. -/
theorem test_hyp_ConversionIsDeterministic :
    let u : State := { blk .load with s14 := 0x2A15#14, c32 := 0#32, seqerr := true, illcmd := true, resp := some 1#32 }
    (blk .load).ph = .load ∧ u.ph = .load ∧ (blk .load).params = u.params ∧ (blk .load).oob = u.oob ∧
      (blk .load).conflict = u.conflict ∧ ∀ a, a < (blk .load).params.imgLen → (blk .load).img.read a = u.img.read a :=
  ⟨rfl, rfl, rfl, rfl, rfl, fun _ _ => rfl⟩

theorem test_hyp_Ck14MemFoldsTheImageWord :
    ((blk .load).ph ≠ .rst ∧ (0x800E#16).toNat % 2 = 0 ∧ (0x800E#16).toNat + 1 < (blk .load).params.imgLen) ∧
    (blk .rst).ph = .rst ∧ (0x0401#16).toNat % 2 = 1 ∧ (blk .load).params.imgLen ≤ (0x8010#16).toNat + 1 := by decide

/-- The recurrence `V1` has the four properties. -/
theorem test_hyp_Ck14VariantsAreTheAdmissibleFunctions :
    let r := Ck14Recurrence.v1
    r.wordBits.Nodup ∧ r.apply 0#14 0x4000#16 ≠ r.withoutPoly.apply 0#14 0x4000#16 ∧
    (∀ x w k, k < 16 → r.apply x (w ^^^ BitVec.twoPow 16 k) ≠ r.apply x w) ∧
    r.apply (r.apply 0#14 0x0001#16) 0x0002#16 ≠ r.apply (r.apply 0#14 0x0002#16) 0x0001#16 := by
  have hbit : ∀ k, k < 16 → Ck14Recurrence.v1.apply 0#14 (BitVec.twoPow 16 k) ≠ 0#14 := by decide +kernel
  refine ⟨by decide +kernel, by decide +kernel, fun x w k hk h => hbit k hk ?_, by decide +kernel⟩
  have hx := Ck14Recurrence.v1.apply_xor x 0#14 w (BitVec.twoPow 16 k)
  rw [BitVec.xor_zero, h] at hx
  have hc := congrArg (fun y => Ck14Recurrence.v1.apply x w ^^^ y) hx
  simpa [← BitVec.xor_assoc] using hc.symm

theorem test_hyp_CommandsReadNeitherResponseNorPort :
    ({ blk .rst with port := [.command 0x13000000#32] }).port = .command 0x13000000#32 :: [] ∧
    ({ blk .rst with port := [.command 0x08000000#32] }).port = .command 0x08000000#32 :: [] := by decide

theorem test_hyp_Ck14V1CopiesAndPermutes : (0x3FFF#16).toNat < 0x4000 := by decide

theorem test_hyp_Ck14AlternativesFollowTheirRecurrences :
    let t : Nat → Half := fun n => ck14ShiftsV3 n ((0x3FFF#14).setWidth 16 ^^^ 0x3FFF#16)
    t 0 = (0x3FFF#14).setWidth 16 ^^^ 0x3FFF#16 ∧
    ∀ n, t (n + 1) = if (t n).getLsbD 0 = true then (t n >>> 1) ^^^ 0x23B1#16 else t n >>> 1 := by
  have h0 : ∀ n, ck14ShiftsV3 n 0#16 = 0#16 := by
    intro n
    induction n with
    | zero => rfl
    | succ n ih => rw [ck14ShiftsV3_succ, show ck14ShiftV3 0#16 = 0#16 by decide, ih]
  refine ⟨rfl, fun n => ?_⟩
  simp only [show (0x3FFF#14).setWidth 16 ^^^ 0x3FFF#16 = 0#16 by decide, h0]
  decide

/-- The smallest and the largest admissible `PM_SIZE`. -/
theorem test_hyp_EveryBuildMeetsTheConstraints : (0x8000 % 2 = 0 ∧ 0x8000 ≤ 0x8000 ∧ 0x8000 ≤ 0xFFF0) ∧
    0xFFF0 % 2 = 0 ∧ 0x8000 ≤ 0xFFF0 ∧ 0xFFF0 ≤ 0xFFF0 := by decide

theorem test_hyp_PhaseChangesOnlyAsTheTableSays : (blk .load).ph = .load ∧ (blk .load).oob = false ∧
    ¬({ blk .load with img := [(0x3EFE, 0x00#8)] }).img.slotErased ∧ decode 0xFF000000#32 = none := by
  refine ⟨rfl, rfl, ?_, by decide⟩
  rintro ⟨h, -⟩; revert h; decide

theorem test_hyp_FlagsAreSetOnlyByTheirCauses : ({ blk .load with oob := true }).ph = .load ∧
    ({ blk .load with oob := true }).oob = true ∧ decode 0x24000000#32 = none := by decide

theorem test_hyp_ResetStateHoldsTheSpecsValues : (blk .rst).ph = .rst := by decide

theorem test_hyp_Crc32MemFoldsTheImageByte : (blk .load).ph ≠ .rst ∧ (0x800F#16).toNat < (blk .load).params.imgLen ∧
    (blk .rst).ph = .rst ∧ (blk .load).params.imgLen ≤ (0x8010#16).toNat := by decide

theorem test_hyp_EngineScanEqualsPlace : (blk .load).ph = .load ∧ (blk .load).oob = false := by decide

/-- A placed erased image, and the same with its suffix written. -/
theorem test_hyp_inv_placed : Inv (blk .placed) :=
  ⟨rfl, by decide, by decide, by decide, by decide, by decide, by simp [blk], by decide, by decide⟩

theorem test_hyp_EngineCrcEqualsTheSuffixField :
    Inv { blk .placed with toBlock := afterSuffix (build .v1) (blk .placed).toBlock } ∧
    ({ blk .placed with toBlock := afterSuffix (build .v1) (blk .placed).toBlock } : State).ph = .done := by
  refine ⟨⟨wf_afterSuffix (build .v1) (blk .placed).toBlock rfl, by simp [blk], by simp, fun _ => ⟨rfl, rfl⟩, by simp, fun _ => ?_,
    fun _ => ⟨headerAt_afterSuffix _ _, ?_⟩, by simp [blk], by simp⟩, rfl⟩
  · rw [read_afterSuffix_outside _ _ (.inl (by decide))]; decide
  · have h := word32At_afterSuffix (build .v1) (blk .placed).toBlock
    rw [suffixCrc_eq] at h
    exact h

theorem test_hyp_EngineCommandsCannotDisturbTheSuffix : (blk .placed).ph = .placed ∧
    ∀ i ∈ [Instr.ck14clr, .ck14mem 0x0400#16, .crc32seed, .crc32mem 0x0000#16, .ck14add 1#16, .crc32b 1#8, .rdck14, .rdcrc32],
      i = .ck14clr ∨ (∃ a, i = .ck14add a) ∨ (∃ a, i = .ck14mem a) ∨ i = .rdck14 ∨ i = .crc32seed ∨
      (∃ b, i = .crc32b b) ∨ (∃ a, i = .crc32mem a) ∨ i = .rdcrc32 := by
  refine ⟨rfl, fun i h => ?_⟩
  simp only [List.mem_cons, List.not_mem_nil, or_false] at h
  rcases h with rfl | rfl | rfl | rfl | rfl | rfl | rfl | rfl <;> simp

theorem test_hyp_EveryStepKeepsTheInvariants : Inv { blk .placed with port := [.command 0x04000000#32] } ∧
    step { blk .placed with port := [.command 0x04000000#32] } =
      .next ((blk .placed).deliver (after (build .v1) .suffix (blk .placed).toBlock)) :=
  ⟨⟨rfl, by decide, by decide, by decide, by decide, by decide, by simp [blk], by decide, by decide⟩, exec_eq .suffix (blk .placed)⟩

theorem test_hyp_OnlyResetClearsFlagsOrMovesBack :
    let s : State := { blk .load with oob := true, seqerr := true, port := [.command 0x03000000#32] }
    (∀ rest, s.port ≠ .reset :: rest) ∧ after? (step s) (fun t => (t.ph, t.oob, t.seqerr)) = some (.fail, true, true) ∧
      (blk .load).ph ≠ .rst ∧ { s with port := [.reset] }.port = .reset :: [] ∧ s.params = (blk .done).params := by
  refine ⟨fun rest h => by simp at h, by decide, by decide, rfl, rfl⟩

theorem test_hyp_FailIsLeftOnlyByReset : (blk .fail).ph = .fail ∧
    after? (step { blk .fail with port := [.command 0x01000000#32] }) (·.ph) = some .fail ∧
    after? (step { blk .fail with port := [.reset] }) (·.ph) = some .rst ∧ decode 0x14000000#32 = none := by decide

end Sys2Proof.Tests
end

section
/-! The builds: what every value of the parameter type meets (R7), and that every admissible `PM_SIZE` is that of one. -/

namespace Sys2Proof

/-- Every `PM_SIZE` that R7 admits is that of some value of the field `pmExtra`: half of what it has above `WIN_HI`. -/
theorem exists_pmExtra_of_admissible {n : Nat} (heven : n % 2 = 0) (hlo : 0x8000 ≤ n) (hhi : n ≤ 0xFFF0) :
    ∃ k : Fin Config.pmExtraBound, Config.winHi + 2 * k.val = n := by
  have hbound : (n - Config.winHi) / 2 < Config.pmExtraBound := by
    simp only [Config.pmExtraBound, Config.maxImgLen, Config.suffixLen, Config.winHi]
    omega
  refine ⟨⟨(n - Config.winHi) / 2, hbound⟩, ?_⟩
  simp only [Config.winHi]
  omega

/-- The checksum scan ends at or below every program-memory size, since it ends below the load window's end (R7). -/
theorem Params.ckStop_le_pmSize (p : Params) : Config.ckStop ≤ p.pmSize :=
  le_trans (by decide : Config.ckStop ≤ Config.winHi) p.winHi_le_pmSize

/-- Settles O60: the bounds on `PM_SIZE` by the laws of the parameters, the constants' own by evaluation, and a build of each
admissible size by `exists_pmExtra_of_admissible`. -/
theorem everyBuildMeetsTheConstraints : Obligations.EveryBuildMeetsTheConstraints := by
  refine ⟨fun p => ?_, fun n vid pid v heven hlo hhi => ?_⟩
  · exact ⟨p.pmSize_even, by decide, by decide, by decide, by decide, p.ckStop_le_pmSize, p.winHi_le_pmSize, p.imgLen_le,
      p.imgLen_eq, by decide, by decide⟩
  · obtain ⟨k, hk⟩ := exists_pmExtra_of_admissible heven hlo hhi
    exact ⟨⟨k, vid, pid, v⟩, hk, rfl, rfl, rfl⟩

end Sys2Proof
end

section
/-! The columns of the read/write matrix (R36): which commands leave a part of the block as it was, refused or executed. -/

namespace Sys2Proof.Machine

variable {p : Params} {i : Instr} {b : Block} {α : Type}

/-! ## The body of `PLACE`, field by field (R171 to R174) -/

theorem ph_afterPlace (p : Params) (b : Block) : (afterPlace p b).ph =
    if b.oob = true then .fail
    else if b.img.read 0x3EFE = 0xFF#8 ∧ b.img.read 0x3EFF = 0x3F#8 then .placed else .fail := by
  unfold afterPlace; split_ifs <;> rfl

theorem conflict_afterPlace_iff (p : Params) (b : Block) : (afterPlace p b).conflict = true ↔
    b.conflict = true ∨ (b.oob = false ∧ ¬(b.img.read 0x3EFE = 0xFF#8 ∧ b.img.read 0x3EFF = 0x3F#8)) := by
  unfold afterPlace
  split_ifs with hoob hslot
  · simp [hoob]
  · simp [hslot]
  · simp [hoob, hslot]

theorem read_afterPlace_outside (p : Params) (b : Block) {x : Nat} (h : ¬(0x3EFE ≤ x ∧ x < 0x3F00)) :
    (afterPlace p b).img.read x = b.img.read x := by
  unfold afterPlace
  split_ifs
  · rfl
  · exact Memory.read_withSlot_other _ _ (by omega) (by omega)
  · rfl

/-! ## `LDB`: a byte or the flag (R152) -/

theorem effect_ldb_inside {a : Half} (v : Byte) (h : 0x0400 ≤ a.toNat ∧ a.toNat < 0x8000) :
    effect p (.ldb a v) b = ({ b with img := b.img.write a.toNat v }, 0#32) := by
  rw [effect, if_pos h]

theorem effect_ldb_outside {a : Half} (v : Byte) (h : ¬(0x0400 ≤ a.toNat ∧ a.toNat < 0x8000)) :
    effect p (.ldb a v) b = ({ b with oob := true }, 0#32) := by
  rw [effect, if_neg h]

/-- `LDB` leaves what neither its store nor its flag is part of. -/
theorem effect_ldb_field (f : Block → α) {a : Half} {v : Byte} (himg : f { b with img := b.img.write a.toNat v } = f b)
    (hoob : f { b with oob := true } = f b) : f (effect p (.ldb a v) b).1 = f b := by
  by_cases h : 0x0400 ≤ a.toNat ∧ a.toNat < 0x8000
  · rw [effect_ldb_inside v h, himg]
  · rw [effect_ldb_outside v h, hoob]

theorem oob_effect_ldb_iff (p : Params) (a : Half) (v : Byte) (b : Block) :
    (effect p (.ldb a v) b).1.oob = true ↔ b.oob = true ∨ (a.toNat < 0x0400 ∨ 0x8000 ≤ a.toNat) := by
  by_cases h : 0x0400 ≤ a.toNat ∧ a.toNat < 0x8000
  · have hin : ¬(a.toNat < 0x0400 ∨ 0x8000 ≤ a.toNat) := by omega
    simp [effect_ldb_inside v h, hin]
  · have hout : a.toNat < 0x0400 ∨ 0x8000 ≤ a.toNat := by omega
    simp [effect_ldb_outside v h, hout]

/-! ## `RUN`: the body of `PLACE`, then the suffix where that was successful (R194) -/

theorem effect_run_placed (h : (afterPlace p b).ph = .placed) :
    effect p .run b = (afterSuffix p (afterPlace p b), 0#32) := by
  rw [effect, if_pos h]

theorem effect_run_failed (h : (afterPlace p b).ph ≠ .placed) : effect p .run b = (afterPlace p b, 0#32) := by
  rw [effect, if_neg h]

/-- What `SUFFIX` leaves as it was is, after `RUN`, as the body of `PLACE` left it. -/
theorem effect_run_field (f : Block → α) (h : f (afterSuffix p (afterPlace p b)) = f (afterPlace p b)) :
    f (effect p .run b).1 = f (afterPlace p b) := by
  by_cases hp : (afterPlace p b).ph = .placed
  · rw [effect_run_placed hp, h]
  · rw [effect_run_failed hp]

theorem ph_effect_run (p : Params) (b : Block) : (effect p .run b).1.ph =
    if b.oob = true then .fail
    else if b.img.read 0x3EFE = 0xFF#8 ∧ b.img.read 0x3EFF = 0x3F#8 then .done else .fail := by
  have hph := ph_afterPlace p b
  split_ifs at hph ⊢
  · rw [effect_run_failed (by simp [hph]), hph]
  · rw [effect_run_placed hph, afterSuffix_ph]
  · rw [effect_run_failed (by simp [hph]), hph]

/-! ## What a command leaves, refused or executed -/

/-- A part of the block other than the sticky bits, left as it was by the effect of a command, is left by the command. -/
theorem after_field (f : Block → α) (hseq : f b.raiseSeqerr = f b) (hill : f b.raiseIllcmd = f b)
    (heff : f (effect p i b).1 = f b) : f (after p i b).1 = f b := by
  rcases after_cases p i b with ⟨-, h⟩ | ⟨-, -, h⟩ | ⟨-, -, h⟩ <;> rw [h]
  · exact hseq
  · exact hill
  · exact heff

theorem img_after (h : ¬(i = .fill ∨ (∃ a v, i = .ldb a v) ∨ i = .place ∨ i = .suffix ∨ i = .run)) :
    (after p i b).1.img = b.img := by
  refine after_field Block.img rfl rfl ?_
  cases i with
  | fill | ldb a v | place | suffix | run => simp at h
  | _ => rfl

theorem s14_after (h : ¬(i = .place ∨ i = .run ∨ i = .ck14clr ∨ (∃ a, i = .ck14add a) ∨ ∃ a, i = .ck14mem a)) :
    (after p i b).1.s14 = b.s14 := by
  refine after_field Block.s14 rfl rfl ?_
  cases i with
  | place | run | ck14clr | ck14add a | ck14mem a => simp at h
  | ldb a v => exact effect_ldb_field Block.s14 rfl rfl
  | _ => rfl

theorem c32_after (h : ¬(i = .suffix ∨ i = .run ∨ i = .crc32seed ∨ (∃ v, i = .crc32b v) ∨ ∃ a, i = .crc32mem a)) :
    (after p i b).1.c32 = b.c32 := by
  refine after_field Block.c32 rfl rfl ?_
  cases i with
  | suffix | run | crc32seed | crc32b v | crc32mem a => simp at h
  | ldb a v => exact effect_ldb_field Block.c32 rfl rfl
  | place => exact afterPlace_c32 p b
  | _ => rfl

theorem oob_after (h : ¬∃ a v, i = .ldb a v) : (after p i b).1.oob = b.oob := by
  refine after_field Block.oob rfl rfl ?_
  cases i with
  | ldb a v => simp at h
  | place => exact afterPlace_oob p b
  | run => exact (effect_run_field Block.oob rfl).trans (afterPlace_oob p b)
  | _ => rfl

theorem conflict_after (h : ¬(i = .place ∨ i = .run)) : (after p i b).1.conflict = b.conflict := by
  refine after_field Block.conflict rfl rfl ?_
  cases i with
  | place | run => simp at h
  | ldb a v => exact effect_ldb_field Block.conflict rfl rfl
  | _ => rfl

theorem ph_after (h : ¬(i = .fill ∨ i = .place ∨ i = .suffix ∨ i = .run)) : (after p i b).1.ph = b.ph := by
  refine after_field Block.ph rfl rfl ?_
  cases i with
  | fill | place | suffix | run => simp at h
  | ldb a v => exact effect_ldb_field Block.ph rfl rfl
  | _ => rfl

/-- Only a refusal writes a sticky bit (R28). -/
theorem sticky_after (hp : PhaseLegal i b.ph) (ho : OperandLegal p i) :
    (after p i b).1.seqerr = b.seqerr ∧ (after p i b).1.illcmd = b.illcmd := by
  rw [after_accepted hp ho]
  exact effect_frame p i b

/-! ## The bytes of the image a command leaves -/

theorem read_after_ldb {a : Half} {v : Byte} {x : Nat} (h : x ≠ a.toNat) :
    (after p (.ldb a v) b).1.img.read x = b.img.read x :=
  after_field (·.img.read x) rfl rfl
    (effect_ldb_field (·.img.read x) (Memory.read_write_other _ _ h) rfl)

theorem read_after_place {x : Nat} (h : ¬(Config.ckSlot ≤ x ∧ x < Config.ckSlot + 2)) :
    (after p .place b).1.img.read x = b.img.read x :=
  after_field (·.img.read x) rfl rfl (read_afterPlace_outside p b h)

theorem read_after_suffix {x : Nat} (h : ¬(p.pmSize ≤ x ∧ x < p.pmSize + 16)) :
    (after p .suffix b).1.img.read x = b.img.read x :=
  after_field (·.img.read x) rfl rfl (read_afterSuffix_outside p b (by omega))

theorem read_after_run {x : Nat} (hslot : ¬(Config.ckSlot ≤ x ∧ x < Config.ckSlot + 2))
    (hsuffix : ¬(p.pmSize ≤ x ∧ x < p.pmSize + 16)) : (after p .run b).1.img.read x = b.img.read x :=
  after_field (·.img.read x) rfl rfl <|
    (effect_run_field (·.img.read x) (read_afterSuffix_outside p _ (by omega))).trans (read_afterPlace_outside p b hslot)

end Sys2Proof.Machine

namespace Sys2Proof

open Machine

/-- Settles O57: each clause is a column of the matrix, read as "the other commands leave it". -/
theorem commandsWriteOnlyTheirState : Obligations.CommandsWriteOnlyTheirState := by
  intro i s
  refine ⟨_, exec_eq i s, not_imp_comm.mp img_after, fun x hx => ?_, not_imp_comm.mp s14_after, not_imp_comm.mp c32_after,
    not_imp_comm.mp oob_after, not_imp_comm.mp conflict_after, not_imp_comm.mp ph_after, fun hsticky ⟨hp, ho⟩ => ?_, rfl, rfl⟩
  · cases i with
    | fill => trivial
    | ldb a v => exact not_imp_comm.mp read_after_ldb hx
    | place => exact not_imp_comm.mp read_after_place hx
    | suffix => exact not_imp_comm.mp read_after_suffix hx
    | run => exact or_iff_not_imp_left.mpr fun hslot => not_imp_comm.mp (read_after_run hslot) hx
    | _ => exact hx (congrArg (Memory.read · x) (img_after (by simp)))
  · obtain ⟨hseq, hill⟩ := sticky_after hp ho
    exact hsticky.elim (· hseq) (· hill)

end Sys2Proof
end

section
/-! The phase and the two flags: their transitions, command by command (R27, R35). -/

namespace Sys2Proof.Machine

variable {p : Params} {i : Instr} {b : Block}

/-! ## The commands of the conversion in the one phase that allows them -/

theorem after_fill (h : b.ph = .rst) : after p .fill b = ({ b with img := [], ph := .load }, 0#32) :=
  after_accepted (i := .fill) h trivial

theorem after_ldb {a : Half} {v : Byte} (h : b.ph = .load) : after p (.ldb a v) b = effect p (.ldb a v) b :=
  after_accepted (i := .ldb a v) h trivial

theorem after_place (h : b.ph = .load) : after p .place b = (afterPlace p b, 0#32) :=
  after_accepted (i := .place) h trivial

theorem after_suffix (h : b.ph = .placed) : after p .suffix b = (afterSuffix p b, 0#32) :=
  after_accepted (i := .suffix) h trivial

theorem after_run (h : b.ph = .load) : after p .run b = effect p .run b :=
  after_accepted (i := .run) h trivial

/-! ## The transitions of the phase -/

theorem ph_after_of_not_phaseLegal (h : ¬PhaseLegal i b.ph) : (after p i b).1.ph = b.ph := by
  rw [after_outOfPhase h, Block.raiseSeqerr_ph]

theorem ph_after_place (h : b.ph = .load) : (after p .place b).1.ph =
    if b.oob = true then .fail
    else if b.img.read 0x3EFE = 0xFF#8 ∧ b.img.read 0x3EFF = 0x3F#8 then .placed else .fail := by
  rw [after_place h, ph_afterPlace]

theorem ph_after_run (h : b.ph = .load) : (after p .run b).1.ph =
    if b.oob = true then .fail
    else if b.img.read 0x3EFE = 0xFF#8 ∧ b.img.read 0x3EFF = 0x3F#8 then .done else .fail := by
  rw [after_run h, ph_effect_run]

/-! ## The causes of the flags -/

theorem oob_after_iff (p : Params) (i : Instr) (b : Block) : (after p i b).1.oob = true ↔
    b.oob = true ∨ ∃ a v, i = .ldb a v ∧ b.ph = .load ∧ (a.toNat < 0x0400 ∨ 0x8000 ≤ a.toNat) := by
  by_cases hi : ∃ a v, i = .ldb a v
  · obtain ⟨a, v, rfl⟩ := hi
    by_cases hp : b.ph = .load
    · rw [after_ldb hp, oob_effect_ldb_iff]
      simp [hp]
    · rw [after_outOfPhase (i := .ldb a v) hp]
      simp [hp]
  · rw [oob_after hi, or_iff_left fun ⟨a, v, h, _⟩ => hi ⟨a, v, h⟩]

/-- `PLACE` and `RUN` treat `CONFLICT` alike: in `LOAD` as the body of `PLACE` does, elsewhere not at all. -/
theorem conflict_after_placing (hi : i = .place ∨ i = .run) :
    (after p i b).1.conflict = if b.ph = .load then (afterPlace p b).conflict else b.conflict := by
  split_ifs with hp
  · rcases hi with rfl | rfl
    · rw [after_place hp]
    · rw [after_run hp, effect_run_field Block.conflict rfl]
  · have hillegal : ¬PhaseLegal i b.ph := by rcases hi with rfl | rfl <;> exact hp
    rw [after_outOfPhase hillegal, Block.raiseSeqerr_conflict]

theorem conflict_after_iff (p : Params) (i : Instr) (b : Block) : (after p i b).1.conflict = true ↔
    b.conflict = true ∨ ((i = .place ∨ i = .run) ∧ b.ph = .load ∧ b.oob = false ∧
      ¬(b.img.read 0x3EFE = 0xFF#8 ∧ b.img.read 0x3EFF = 0x3F#8)) := by
  by_cases hi : i = .place ∨ i = .run
  · rw [conflict_after_placing hi]
    split_ifs with hp
    · simp only [conflict_afterPlace_iff, hi, hp, true_and]
    · simp only [hp, false_and, and_false, or_false]
  · simp only [conflict_after hi, hi, false_and, or_false]

/-! ## The flags in the status word (R95) -/

theorem getLsbD_status_oob (b : Block) : b.status.getLsbD 4 = b.oob := by
  simp only [Block.status, BitVec.getLsbD_setWidth, BitVec.getLsbD_append]
  simp

theorem getLsbD_status_conflict (b : Block) : b.status.getLsbD 5 = b.conflict := by
  simp only [Block.status, BitVec.getLsbD_setWidth, BitVec.getLsbD_append]
  simp

theorem exec_rdst (s : State) : exec .rdst s = .next { s with resp := some s.status } :=
  exec_accepted (i := .rdst) trivial trivial

/-! ## What a step does on each kind of event -/

theorem step_reset {s : State} {rest : List HostEvent} (h : s.port = .reset :: rest) : step s = .next (s.resetEvent rest) := by
  rw [step, h]

/-- A word that is no command raises `ILLCMD` and does nothing else to the block (R86 steps 2 and 3). -/
theorem step_illegal {s : State} {c : Word} {rest : List HostEvent} (hport : s.port = .command c :: rest)
    (hc : decode c = none) : step s = .next (State.deliver { s with port := rest } (s.toBlock.raiseIllcmd, 0#32)) := by
  rw [step_command hport, transact_eq, hc, settle]

/-- No step reads the response of the step before it. -/
theorem step_resp (s : State) (r : Option Word) : step { s with resp := r } = step s := by
  obtain ⟨b, p, port, r'⟩ := s
  rcases port with _ | ⟨c | _, rest⟩
  · rfl
  · rw [step_command rfl, step_command rfl, transact_eq]; rfl
  · rfl

end Sys2Proof.Machine

namespace Sys2Proof

open Machine

/-- Settles O54: the four transitions by the lemma of the command, in the phase that allows it; every other phase refuses. -/
theorem phaseChangesOnlyAsTheTableSays : Obligations.PhaseChangesOnlyAsTheTableSays := by
  refine ⟨fun i s => ⟨_, exec_eq i s, ?_⟩, fun i s hi hp hoob hslot => ⟨_, exec_eq i s, ?_⟩,
    fun s c rest hport hc => ⟨_, step_illegal hport hc, rfl⟩, fun s rest hport => ⟨_, step_reset hport, rfl⟩⟩
  · have hrefused : ¬PhaseLegal i s.ph → (after s.params i s.toBlock).1.ph = s.ph := ph_after_of_not_phaseLegal
    rw [State.deliver_toBlock]
    cases i with
    | fill =>
      cases hp : s.ph with
      | rst => rw [after_fill hp]
      | _ => exact (hrefused (by simp [PhaseLegal, hp])).trans hp
    | place =>
      cases hp : s.ph with
      | load => exact ph_after_place hp
      | _ => exact (hrefused (by simp [PhaseLegal, hp])).trans hp
    | suffix =>
      cases hp : s.ph with
      | placed => rw [after_suffix hp]; rfl
      | _ => exact (hrefused (by simp [PhaseLegal, hp])).trans hp
    | run =>
      cases hp : s.ph with
      | load => exact ph_after_run hp
      | _ => exact (hrefused (by simp [PhaseLegal, hp])).trans hp
    | _ => exact ph_after (by simp)
  · exact (conflict_after_iff s.params i s.toBlock).mpr (.inr ⟨hi, hp, hoob, hslot⟩)

/-- Settles O55: the causes by `oob_after_iff` and `conflict_after_iff`, the failure by the transitions of `PLACE` and `RUN`. -/
theorem flagsAreSetOnlyByTheirCauses : Obligations.FlagsAreSetOnlyByTheirCauses := by
  refine ⟨fun i s => ⟨_, exec_eq i s, oob_after_iff _ i _, conflict_after_iff _ i _⟩,
    fun s c rest hport hc => ⟨_, step_illegal hport hc, rfl, rfl⟩, fun i s hi hp hoob => ⟨_, exec_eq i s, ?_⟩,
    fun s => ⟨_, exec_rdst s, getLsbD_status_oob _, getLsbD_status_conflict _⟩, rfl, rfl⟩
  rw [State.deliver_toBlock]
  rcases hi with rfl | rfl
  · rw [ph_after_place hp, if_pos hoob]
  · rw [ph_after_run hp, if_pos hoob]

/-- Settles O59: what a command returns (`exec_eq`, `transact_eq`) is a function of the build, the word and the block alone. -/
theorem commandsReadNeitherResponseNorPort : Obligations.CommandsReadNeitherResponseNorPort := by
  refine ⟨fun i s p r => ⟨_, exec_eq i s, exec_eq i { s with port := p, resp := r }⟩, step_resp, fun s c rest hport => ?_⟩
  exact ⟨_, _, transact_eq s.params c s.toBlock, by rw [step_command hport, transact_eq]; rfl⟩

end Sys2Proof
end

section
/-! The invariants of R34: they hold at reset, and every step keeps them. One lemma for each way the conversion moves. -/

namespace Sys2Proof.Machine

variable {s t : State}

/-- The invariants speak of the image, the flags, the phase and the build alone. -/
theorem Inv.congr (h : Inv s) (himg : t.img = s.img) (hoob : t.oob = s.oob) (hconflict : t.conflict = s.conflict)
    (hph : t.ph = s.ph) (hparams : t.params = s.params) : Inv t := by
  obtain ⟨⟨img, s14, c32, oob, conflict, ph, seqerr, illcmd⟩, params, port, resp⟩ := t
  dsimp only at himg hoob hconflict hph hparams
  subst himg hoob hconflict hph hparams
  exact ⟨h.canonical, h.conflictFails, h.failHasCause, h.successIsClear, h.outsideWindowErased, h.slotHighBits,
    h.suffixStands, h.notBoth, h.resetIsClear⟩

/-- Outside `FAIL` there is no conflict (R34 item 2). -/
theorem Inv.conflict_eq_false (h : Inv s) (hp : s.ph ≠ .fail) : s.conflict = false :=
  Bool.eq_false_iff.mpr (mt h.conflictFails hp)

/-- The reset block meets the invariants in every build. -/
theorem inv_of_reset (h : s.toBlock = Block.reset) : Inv s where
  canonical := by rw [h]; rfl
  conflictFails := by simp [h]
  failHasCause := by simp [h]
  successIsClear := by simp [h]
  outsideWindowErased := by simp [h]
  slotHighBits := by simp [h]
  suffixStands := by simp [h]
  notBoth := by simp [h]
  resetIsClear := by simp [h]

/-- `FILL` erases every byte, from a phase in which no flag is set. -/
theorem Inv.fill (h : Inv s) (hp : s.ph = .rst) : Inv (s.deliver ({ s.toBlock with img := [], ph := .load }, 0#32)) := by
  obtain ⟨hoob, hconflict⟩ := h.resetIsClear hp
  exact
    { canonical := rfl
      conflictFails := by simp [hconflict]
      failHasCause := by simp
      successIsClear := by simp
      outsideWindowErased := fun _ a _ _ => rfl
      slotHighBits := by simp
      suffixStands := by simp
      notBoth := by simp [hconflict]
      resetIsClear := by simp }

/-- `LDB` writes no byte outside the window, and in `LOAD` there is no conflict for `OOB` to meet. -/
theorem Inv.ldb (h : Inv s) (hp : s.ph = .load) (a : Half) (v : Byte) :
    Inv (s.deliver (effect s.params (.ldb a v) s.toBlock)) := by
  have hconflict := h.conflict_eq_false (by simp [hp])
  have hpm := s.params.winHi_le_pmSize
  have himg := s.params.imgLen_eq
  by_cases hw : 0x0400 ≤ a.toNat ∧ a.toNat < 0x8000
  · rw [effect_ldb_inside v hw]
    exact
      { canonical := Memory.wf_write h.canonical (by omega) v
        conflictFails := h.conflictFails
        failHasCause := h.failHasCause
        successIsClear := h.successIsClear
        outsideWindowErased := fun _ x hx hout =>
          (Memory.read_write_other _ v (by omega)).trans (h.outsideWindowErased hp x hx hout)
        slotHighBits := by simp [hp]
        suffixStands := by simp [hp]
        notBoth := h.notBoth
        resetIsClear := h.resetIsClear }
  · rw [effect_ldb_outside v hw]
    exact
      { canonical := h.canonical
        conflictFails := h.conflictFails
        failHasCause := by simp [hp]
        successIsClear := by simp [hp]
        outsideWindowErased := h.outsideWindowErased
        slotHighBits := h.slotHighBits
        suffixStands := h.suffixStands
        notBoth := by simp [hconflict]
        resetIsClear := by simp [hp] }

/-- In `FAIL` the invariants ask for a canonical image and one cause (R34 items 2 and 3, R268). -/
theorem inv_of_fail (hp : s.ph = .fail) (hwf : s.img.wf s.params.imgLen = true) (hcause : s.oob = true ∨ s.conflict = true)
    (hone : ¬(s.oob = true ∧ s.conflict = true)) : Inv s where
  canonical := hwf
  conflictFails := fun _ => hp
  failHasCause := fun _ => hcause
  successIsClear := by simp [hp]
  outsideWindowErased := by simp [hp]
  slotHighBits := by simp [hp]
  suffixStands := by simp [hp]
  notBoth := hone
  resetIsClear := by simp [hp]

/-- The slot's high byte keeps two zero bits above the fourteen of the checksum (R34 item 7). -/
theorem highBits_withSlot (m : Memory) (x : Acc14) : ((m.withSlot x).read 0x3EFF).extractLsb' 6 2 = 0#2 := by
  rw [Memory.read_withSlot_hi]
  exact BitVec.extractLsb'_append_eq_left

/-- The body of `PLACE` fails for the one cause it finds, or stores the checksum with no flag set. -/
theorem Inv.place (h : Inv s) (hp : s.ph = .load) : Inv (s.deliver (afterPlace s.params s.toBlock, 0#32)) := by
  have hconflict := h.conflict_eq_false (by simp [hp])
  have hwf := wf_afterPlace s.params s.toBlock h.canonical
  unfold afterPlace at hwf ⊢
  split_ifs at hwf ⊢ with hoob hslot
  · exact inv_of_fail rfl hwf (.inl hoob) (by simp [hconflict])
  · exact
      { canonical := hwf
        conflictFails := by simp [hconflict]
        failHasCause := by simp
        successIsClear := fun _ => ⟨Bool.eq_false_iff.mpr hoob, hconflict⟩
        outsideWindowErased := by simp
        slotHighBits := fun _ => highBits_withSlot _ _
        suffixStands := by simp
        notBoth := by simp [hconflict]
        resetIsClear := by simp }
  · exact inv_of_fail rfl hwf (.inr rfl) (by simp [hoob])

/-- `SUFFIX` leaves the slot and writes the header and its CRC. -/
theorem Inv.suffix (h : Inv s) (hp : s.ph = .placed) : Inv (s.deliver (afterSuffix s.params s.toBlock, 0#32)) := by
  have hpm := s.params.winHi_le_pmSize
  obtain ⟨hoob, hconflict⟩ := h.successIsClear (.inl hp)
  exact
    { canonical := wf_afterSuffix s.params s.toBlock h.canonical
      conflictFails := by simp [hconflict]
      failHasCause := by simp
      successIsClear := fun _ => ⟨hoob, hconflict⟩
      outsideWindowErased := by simp
      slotHighBits := fun _ => by
        rw [State.deliver_toBlock, read_afterSuffix_outside _ _ (.inl (by omega))]
        exact h.slotHighBits (.inl hp)
      suffixStands := fun _ => ⟨headerAt_afterSuffix _ _, suffixCrc_eq s.params s.toBlock ▸ word32At_afterSuffix _ _⟩
      notBoth := by simp [hoob]
      resetIsClear := by simp }

/-- `RUN` is `PLACE`, then `SUFFIX` from the state `PLACE` left, if that is `PLACED`. -/
theorem Inv.run (h : Inv s) (hp : s.ph = .load) : Inv (s.deliver (effect s.params .run s.toBlock)) := by
  by_cases hplaced : (afterPlace s.params s.toBlock).ph = .placed
  · rw [effect_run_placed hplaced]
    exact (h.place hp).suffix hplaced
  · rw [effect_run_failed hplaced]
    exact h.place hp

/-- Every command keeps the invariants: the five commands of the conversion by their own lemmas, in the phase that allows them; the
others, and every refusal, by leaving all that the invariants speak of. -/
theorem Inv.command (h : Inv s) (i : Instr) : Inv (s.deliver (after s.params i s.toBlock)) := by
  rcases after_cases s.params i s.toBlock with ⟨-, hr⟩ | ⟨-, -, hr⟩ | ⟨hp, -, hr⟩ <;> rw [hr]
  · exact h.congr rfl rfl rfl rfl rfl
  · exact h.congr rfl rfl rfl rfl rfl
  · cases i with
    | fill => exact h.fill hp
    | ldb a v => exact h.ldb hp a v
    | place => exact h.place hp
    | suffix => exact h.suffix hp
    | run => exact h.run hp
    | _ => exact h.congr rfl rfl rfl rfl rfl

end Sys2Proof.Machine

namespace Sys2Proof

open Machine

/-- Settles O52: the state after reset is the reset block in the default build. -/
theorem invariantsHoldAtReset : Obligations.InvariantsHoldAtReset := inv_of_reset rfl

/-- Settles O53, by what a step can do (`step_cases`): idle, reset, execute a command or refuse an illegal word. -/
theorem everyStepKeepsTheInvariants : Obligations.EveryStepKeepsTheInvariants := by
  intro s t h hstep
  rcases step_cases hstep with ⟨-, rfl⟩ | ⟨rest, -, rfl⟩ | ⟨c, rest, i, -, -, rfl⟩ | ⟨c, rest, -, -, rfl⟩
  · exact h.congr rfl rfl rfl rfl rfl
  · exact inv_of_reset rfl
  · exact Inv.command (s := { s with port := rest }) (h.congr rfl rfl rfl rfl rfl) i
  · exact h.congr rfl rfl rfl rfl rfl

end Sys2Proof
end

section
/-! The encoder and the decoder as one relation, and the opcode map as the set of words the encoder writes (R80 to R88). -/

namespace Sys2Proof

variable {c p : Word} {i : Instr}

/-! ## A word encodes a command exactly when its fields are the command's -/

theorem encode_eq_iff : encode i = c ↔ i.opcode = opField c ∧ i.operandA = aField c ∧ i.operandB = bField c := by
  constructor
  · rintro rfl
    exact ⟨(opField_encode i).symm, (aField_encode i).symm, (bField_encode i).symm⟩
  · rintro ⟨hop, ha, hb⟩
    rw [encode_eq_append, hop, ha, hb, fields_append]

/-! ## What the decoder reads, format by format (R81, R87) -/

theorem encode_of_formatZ {j : Instr} (h : formatZ c j = some i) (hop : (opField c).toNat = j.opcode.toNat)
    (ha : j.operandA = 0#16) (hb : j.operandB = 0#8) : encode i = c := by
  simp only [formatZ, Option.ite_none_right_eq_some, Option.some.injEq] at h
  obtain ⟨⟨hca, hcb⟩, rfl⟩ := h
  exact encode_eq_iff.mpr ⟨(BitVec.eq_of_toNat_eq hop).symm, ha.trans hca.symm, hb.trans hcb.symm⟩

theorem encode_of_formatA {mk : Half → Instr} (h : formatA c mk = some i)
    (hop : (opField c).toNat = (mk (aField c)).opcode.toNat) (ha : (mk (aField c)).operandA = aField c)
    (hb : (mk (aField c)).operandB = 0#8) : encode i = c := by
  simp only [formatA, Option.ite_none_right_eq_some, Option.some.injEq] at h
  obtain ⟨hcb, rfl⟩ := h
  exact encode_eq_iff.mpr ⟨(BitVec.eq_of_toNat_eq hop).symm, ha, hb.trans hcb.symm⟩

theorem encode_of_formatB {mk : Byte → Instr} (h : formatB c mk = some i)
    (hop : (opField c).toNat = (mk (bField c)).opcode.toNat) (ha : (mk (bField c)).operandA = 0#16)
    (hb : (mk (bField c)).operandB = bField c) : encode i = c := by
  simp only [formatB, Option.ite_none_right_eq_some, Option.some.injEq] at h
  obtain ⟨hca, rfl⟩ := h
  exact encode_eq_iff.mpr ⟨(BitVec.eq_of_toNat_eq hop).symm, ha.trans hca.symm, hb⟩

theorem encode_of_decode (h : decode c = some i) : encode i = c := by
  unfold decode at h
  split at h <;> rename_i hop
  case h_1 | h_2 | h_4 | h_5 | h_6 | h_8 | h_9 | h_12 | h_13 | h_16 => exact encode_of_formatZ h hop rfl rfl
  case h_7 | h_10 | h_11 | h_15 => exact encode_of_formatA h hop rfl rfl
  case h_14 => exact encode_of_formatB h hop rfl rfl
  case h_3 =>
    cases h
    exact encode_eq_iff.mpr ⟨(BitVec.eq_of_toNat_eq hop).symm, rfl, rfl⟩
  case h_17 => cases h

theorem decode_encode (i : Instr) : decode (encode i) = some i := by
  rw [encode_eq_append, decode_append]
  cases i <;> rfl

theorem decode_eq_some_iff : decode c = some i ↔ encode i = c :=
  ⟨encode_of_decode, fun h => h ▸ decode_encode i⟩

/-- The legal words are those the encoder writes. -/
theorem decode_isSome_iff : (decode c).isSome = true ↔ ∃ i, encode i = c := by
  rw [Option.isSome_iff_exists]
  exact exists_congr fun _ => decode_eq_some_iff

/-! ## The rows of the opcode map (R81, R82) -/

theorem wordWellFormed_iff : wordWellFormed c = true ↔ ∃ r ∈ rows, c &&& r.format.mask = r.pattern := by
  simp [wordWellFormed, Row.matchesWord]

theorem opField_and (c m : Word) : opField (c &&& m) = opField c &&& opField m := BitVec.extractLsb'_and

/-- Every format's mask holds the whole opcode. -/
theorem opField_of_matches {f : Format} (h : c &&& f.mask = p) : opField c = opField p := by
  have hmask : opField f.mask = BitVec.allOnes 8 := by cases f <;> decide
  rw [← h, opField_and, hmask, BitVec.and_allOnes]

/-- No opcode names two rows. -/
theorem eq_of_opField_pattern_eq : ∀ r ∈ rows, ∀ q ∈ rows, opField r.pattern = opField q.pattern → r = q := by decide

/-- The mask of format `A` holds operand `B`. -/
theorem bField_of_matches_a (h : c &&& Format.a.mask = p) : bField c = bField p := by
  have hmask : bField Format.a.mask = BitVec.allOnes 8 := by decide
  rw [← h, bField, bField, BitVec.extractLsb'_and, ← bField, ← bField, hmask, BitVec.and_allOnes]

/-- The mask of format `B` holds operand `A`. -/
theorem aField_of_matches_b (h : c &&& Format.b.mask = p) : aField c = aField p := by
  have hmask : aField Format.b.mask = BitVec.allOnes 16 := by decide
  rw [← h, aField, aField, BitVec.extractLsb'_and, ← aField, ← aField, hmask, BitVec.and_allOnes]

/-! A word that matches a row is the encoding of the row's command with the operands in the word. -/

theorem encode_of_matches_z (hi : encode i = p) (h : c &&& Format.z.mask = p) : encode i = c := by
  rw [hi, ← h]
  exact BitVec.and_allOnes

theorem encode_of_matches_ab {mk : Half → Byte → Instr} (hop : ∀ a b, (mk a b).opcode = opField p)
    (ha : ∀ a b, (mk a b).operandA = a) (hb : ∀ a b, (mk a b).operandB = b) (h : c &&& Format.ab.mask = p) :
    encode (mk (aField c) (bField c)) = c :=
  encode_eq_iff.mpr ⟨(hop _ _).trans (opField_of_matches h).symm, ha _ _, hb _ _⟩

theorem encode_of_matches_a {mk : Half → Instr} (hop : ∀ a, (mk a).opcode = opField p) (ha : ∀ a, (mk a).operandA = a)
    (hb : ∀ a, (mk a).operandB = bField p) (h : c &&& Format.a.mask = p) : encode (mk (aField c)) = c :=
  encode_eq_iff.mpr ⟨(hop _).trans (opField_of_matches h).symm, ha _, (hb _).trans (bField_of_matches_a h).symm⟩

theorem encode_of_matches_b {mk : Byte → Instr} (hop : ∀ b, (mk b).opcode = opField p)
    (ha : ∀ b, (mk b).operandA = aField p) (hb : ∀ b, (mk b).operandB = b) (h : c &&& Format.b.mask = p) :
    encode (mk (bField c)) = c :=
  encode_eq_iff.mpr ⟨(hop _).trans (opField_of_matches h).symm, (ha _).trans (aField_of_matches_b h).symm, hb _⟩

/-- Every row names a command (R82). -/
theorem exists_encode_of_matches : ∀ r ∈ rows, c &&& r.format.mask = r.pattern → ∃ i, encode i = c := by
  simp only [rows, List.forall_mem_cons]
  exact ⟨
    fun h => ⟨.nop, encode_of_matches_z (by decide) h⟩,
    fun h => ⟨.fill, encode_of_matches_z (by decide) h⟩,
    fun h => ⟨_, encode_of_matches_ab (mk := .ldb) (fun _ _ => rfl) (fun _ _ => rfl) (fun _ _ => rfl) h⟩,
    fun h => ⟨.place, encode_of_matches_z (by decide) h⟩,
    fun h => ⟨.suffix, encode_of_matches_z (by decide) h⟩,
    fun h => ⟨.run, encode_of_matches_z (by decide) h⟩,
    fun h => ⟨_, encode_of_matches_a (mk := .outb) (fun _ => rfl) (fun _ => rfl) (fun _ => rfl) h⟩,
    fun h => ⟨.rdst, encode_of_matches_z (by decide) h⟩,
    fun h => ⟨.ck14clr, encode_of_matches_z (by decide) h⟩,
    fun h => ⟨_, encode_of_matches_a (mk := .ck14add) (fun _ => rfl) (fun _ => rfl) (fun _ => rfl) h⟩,
    fun h => ⟨_, encode_of_matches_a (mk := .ck14mem) (fun _ => rfl) (fun _ => rfl) (fun _ => rfl) h⟩,
    fun h => ⟨.rdck14, encode_of_matches_z (by decide) h⟩,
    fun h => ⟨.crc32seed, encode_of_matches_z (by decide) h⟩,
    fun h => ⟨_, encode_of_matches_b (mk := .crc32b) (fun _ => rfl) (fun _ => rfl) (fun _ => rfl) h⟩,
    fun h => ⟨_, encode_of_matches_a (mk := .crc32mem) (fun _ => rfl) (fun _ => rfl) (fun _ => rfl) h⟩,
    fun h => ⟨.rdcrc32, encode_of_matches_z (by decide) h⟩,
    by simp⟩

theorem wordWellFormed_encode (i : Instr) : wordWellFormed (encode i) = true := by
  cases i with
  | nop => exact Laws.EncodedLegally.nop.1
  | fill => exact Laws.EncodedLegally.fill.1
  | ldb a b => exact (Laws.EncodedLegally.ldb a b).1
  | place => exact Laws.EncodedLegally.place.1
  | suffix => exact Laws.EncodedLegally.suffix.1
  | run => exact Laws.EncodedLegally.run.1
  | outb a => exact (Laws.EncodedLegally.outb a).1
  | rdst => exact Laws.EncodedLegally.rdst.1
  | ck14clr => exact Laws.EncodedLegally.ck14clr.1
  | ck14add a => exact (Laws.EncodedLegally.ck14add a).1
  | ck14mem a => exact (Laws.EncodedLegally.ck14mem a).1
  | rdck14 => exact Laws.EncodedLegally.rdck14.1
  | crc32seed => exact Laws.EncodedLegally.crc32seed.1
  | crc32b b => exact (Laws.EncodedLegally.crc32b b).1
  | crc32mem a => exact (Laws.EncodedLegally.crc32mem a).1
  | rdcrc32 => exact Laws.EncodedLegally.rdcrc32.1

theorem exists_row_of_encode (i : Instr) : ∃ r ∈ rows, encode i &&& r.format.mask = r.pattern :=
  wordWellFormed_iff.mp (wordWellFormed_encode i)

/-- The decoder's branches and the opcode map are one set of words. -/
theorem decode_isSome_iff_matches : (decode c).isSome = true ↔ ∃ r ∈ rows, c &&& r.format.mask = r.pattern := by
  rw [decode_isSome_iff]
  constructor
  · rintro ⟨i, rfl⟩
    exact exists_row_of_encode i
  · rintro ⟨r, hr, h⟩
    exact exists_encode_of_matches r hr h

/-- Settles O1, by evaluating the decoder on the fields of each command's encoding. -/
theorem decodeInvertsEncode : Obligations.DecodeInvertsEncode := decode_encode

/-- Settles O2: every branch of the decoder keeps the opcode and both operand fields. -/
theorem encodeInvertsDecode : Obligations.EncodeInvertsDecode := fun _ _ => encode_of_decode

/-- Settles O3: the words the encoder writes are the legal ones, and each row's words are those of its command. -/
theorem decoderAcceptsExactlyTheRows : Obligations.DecoderAcceptsExactlyTheRows :=
  ⟨fun _ => decode_isSome_iff_matches, exists_row_of_encode⟩

/-- Settles O4: a row's pattern fixes the opcode of the word, and no opcode names two rows. -/
theorem opcodeRowsDoNotOverlap : Obligations.OpcodeRowsDoNotOverlap := fun _ r q hr hq hcr hcq =>
  eq_of_opField_pattern_eq r hr q hq ((opField_of_matches hcr).symm.trans (opField_of_matches hcq))

end Sys2Proof
end

section
/-! What a command word does from every state: the response (R85), the refusals by spelling and by value (R88), the status word
(R95), and the two loads of `LDW` (R97). -/

namespace Sys2Proof.Machine

variable {p : Params} {i : Instr} {b : Block} {s : State}

/-! ## Refusals and the response (R85, R88) -/

/-- A command refused, out of phase or by its operand, responds 0. -/
theorem response_of_refused (h : ¬(PhaseLegal i b.ph ∧ OperandLegal p i)) : (after p i b).2 = 0#32 := by
  rcases after_cases p i b with ⟨-, hr⟩ | ⟨-, -, hr⟩ | ⟨hp, ho, -⟩
  · rw [hr]
  · rw [hr]
  · exact absurd ⟨hp, ho⟩ h

/-- Beside the illegal words only an illegal operand raises `ILLCMD`. -/
theorem illcmd_after_of_operandLegal (ho : OperandLegal p i) : (after p i b).1.illcmd = b.illcmd := by
  by_cases hp : PhaseLegal i b.ph
  · exact (sticky_after hp ho).2
  · rw [after_outOfPhase hp, Block.raiseSeqerr_illcmd]

/-- The phases in which the engines may read the image are all but `RST` (R264). -/
theorem imageReadable_iff (ph : Phase) : (ph = .load ∨ ph = .placed ∨ ph = .done ∨ ph = .fail) ↔ ph ≠ .rst := by
  cases ph <;> decide

/-! ## The fields of the status word (R95) -/

theorem extractLsb'_status_ph (b : Block) : b.status.extractLsb' 0 3 = b.ph.code := by
  rw [Block.status, BitVec.extractLsb'_setWidth_of_le (by decide), BitVec.extractLsb'_append_eq_right]

theorem getLsbD_status_zero (b : Block) : b.status.getLsbD 3 = false := by
  simp only [Block.status, BitVec.getLsbD_setWidth, BitVec.getLsbD_append]
  simp

theorem getLsbD_status_seqerr (b : Block) : b.status.getLsbD 6 = b.seqerr := by
  simp only [Block.status, BitVec.getLsbD_setWidth, BitVec.getLsbD_append]
  simp

theorem getLsbD_status_illcmd (b : Block) : b.status.getLsbD 7 = b.illcmd := by
  simp only [Block.status, BitVec.getLsbD_setWidth, BitVec.getLsbD_append]
  simp

theorem Block.outValid_eq (b : Block) : b.outValid = decide (b.ph = .done) := rfl

theorem getLsbD_status_outValid (b : Block) : b.status.getLsbD 8 = decide (b.ph = .done) := by
  simp only [Block.status, BitVec.getLsbD_setWidth, BitVec.getLsbD_append]
  simp [Block.outValid_eq]

theorem extractLsb'_status_unused (b : Block) : b.status.extractLsb' 9 23 = 0#23 := by
  refine BitVec.eq_of_getLsbD_eq fun k hk => ?_
  simp only [Block.status, BitVec.getLsbD_extractLsb', BitVec.getLsbD_setWidth, BitVec.getLsbD_zero]
  simp

/-- A command that is the decoder's one reading of its opcode in format `Z`. -/
theorem encodedZ_of_decode {op : Byte}
    (h : ∀ (a : Half) (v : Byte), decode (op ++ a ++ v) = if a = 0#16 ∧ v = 0#8 then some i else none) : EncodedZ op i := by
  refine ⟨(h _ _).trans (if_pos ⟨rfl, rfl⟩), fun a v hne => (h a v).trans (if_neg ?_)⟩
  rintro ⟨ha, hv⟩
  exact hne.elim (· ha) (· hv)

/-! ## `LDW` (R97) -/

theorem exec_ldb_inside {a : Half} (v : Byte) (hp : s.ph = .load) (hw : 0x0400 ≤ a.toNat ∧ a.toNat < 0x8000) :
    exec (.ldb a v) s = .next { s with img := s.img.write a.toNat v, resp := some 0#32 } := by
  rw [exec_accepted (i := .ldb a v) hp trivial, effect_ldb_inside v hw]; rfl

theorem execAll_cons_next {is : List Instr} {t : State} (h : exec i s = .next t) : execAll (i :: is) s = execAll is t := by
  rw [execAll, h]

/-- The operand of the second load is the next offset. -/
theorem ofNat_toNat_succ (a : Half) : BitVec.ofNat 16 (a.toNat + 1) = a + 1#16 := by
  rw [BitVec.ofNat_add, BitVec.ofNat_toNat, BitVec.setWidth_eq]

theorem toNat_succ_of_lt {a : Half} (h : a.toNat + 1 < 0x8000) : (a + 1#16).toNat = a.toNat + 1 :=
  BitVec.toNat_add_of_lt (h.trans (by decide))

/-- Two loads at neighbouring offsets of the window write their two bytes. -/
theorem execAll_ldb_ldb {a : Half} (lo hi : Byte) (hp : s.ph = .load) (hlo : 0x0400 ≤ a.toNat) (hhi : a.toNat + 1 < 0x8000) :
    execAll [.ldb a lo, .ldb (a + 1#16) hi] s =
      .next { s with img := (s.img.write a.toNat lo).write (a.toNat + 1) hi, resp := some 0#32 } := by
  have hsucc := toNat_succ_of_lt hhi
  have hfirst := exec_ldb_inside lo hp ⟨hlo, by omega⟩
  have hsecond := exec_ldb_inside (s := { s with img := s.img.write a.toNat lo, resp := some 0#32 }) (a := a + 1#16) hi hp
    (by omega)
  rw [execAll_cons_next hfirst, execAll_cons_next hsecond, execAll, hsucc]

/-- A word is its two bytes (R54). -/
theorem wordOfBytes_extractLsb' (w : Half) : wordOfBytes (w.extractLsb' 0 8) (w.extractLsb' 8 8) = w := by
  rw [wordOfBytes, BitVec.extractLsb'_append_extractLsb'_eq_extractLsb' (by decide)]
  exact BitVec.extractLsb'_eq_self

/-- Two bytes written in ascending offset stand as a word, low byte first (R56). -/
theorem Memory.word_write_write (m : Memory) (a : Nat) (lo hi : Byte) :
    ((m.write a lo).write (a + 1) hi).word a = wordOfBytes lo hi := by
  rw [Memory.word, Memory.read_write_same, Memory.read_write_other _ _ (by omega), Memory.read_write_same]

end Sys2Proof.Machine

namespace Sys2Proof

open Machine

/-- Settles O6: the two loads are two writes at neighbouring offsets of the window. -/
theorem ldwLoadsALittleEndianWord : Obligations.LdwLoadsALittleEndianWord := by
  refine ⟨fun a w => by rw [ofNat_toNat_succ]; rfl, fun a w s is his hp hlo hhi => ?_⟩
  rw [expandLdw, if_pos (by omega)] at his
  cases his
  refine ⟨_, execAll_ldb_ldb _ _ hp hlo hhi, ?_, fun x hx hx' => ?_, rfl⟩
  · rw [Memory.word_write_write, wordOfBytes_extractLsb']
  · rw [Memory.read_write_other _ _ hx', Memory.read_write_other _ _ hx]

/-- Settles O12: the response of `after`, accepted (`effect`) or refused. -/
theorem everyCommandRespondsAsTheTableSays : Obligations.EveryCommandRespondsAsTheTableSays := by
  refine ⟨fun i s => ⟨_, exec_eq i s, fun ⟨hp, ho⟩ => ?_, fun h => congrArg some (response_of_refused h)⟩,
    fun s c rest hport hc => ⟨_, step_illegal hport hc, rfl⟩⟩
  rw [after_accepted hp ho]
  cases i <;> rfl

/-- Settles O14: no row means no command, an illegal operand is refused once the phase allows the command, and `LDB` has none. -/
theorem illegalEncodingsRaiseIllcmd : Obligations.IllegalEncodingsRaiseIllcmd := by
  refine ⟨fun s c rest hport hrow => ?_, fun s a hp ha => ?_, fun s a hp ha => ?_, fun s a hp ha => ?_,
    fun s a v => ⟨_, exec_eq _ s, illcmd_after_of_operandLegal trivial⟩⟩
  · have hc : decode c = none := by rwa [← decode_isSome_iff_matches, Option.not_isSome_iff_eq_none] at hrow
    exact step_illegal hport hc
  · exact exec_badOperand (i := .outb a) hp (Nat.not_lt.mpr ha)
  · exact exec_badOperand (i := .crc32mem a) ((imageReadable_iff _).mpr hp) (Nat.not_lt.mpr ha)
  · exact exec_badOperand (i := .ck14mem a) ((imageReadable_iff _).mpr hp) fun ⟨heven, hlt⟩ => by omega

/-- Settles O22: the response of `RDST` field by field, and the one word that decodes to it. -/
theorem statusWordShowsPhaseAndFlags : Obligations.StatusWordShowsPhaseAndFlags := by
  refine ⟨fun s => ⟨s.status, exec_rdst s, ?_, getLsbD_status_zero _, getLsbD_status_oob _, getLsbD_status_conflict _,
    getLsbD_status_seqerr _, getLsbD_status_illcmd _, getLsbD_status_outValid _, extractLsb'_status_unused _⟩,
    encodedZ_of_decode (decode_append 0x07#8)⟩
  rw [extractLsb'_status_ph]
  cases s.ph <;> rfl

/-- Settles O7: both sides deliver what the command leaves on the block. -/
theorem stepExecutesTheDecodedCommand : Obligations.StepExecutesTheDecodedCommand := by
  intro s c rest i hport hc
  rw [step_command hport, transact_eq, hc, exec_eq, settle]

end Sys2Proof
end

section
/-! The commands of the CK14 engine (R114 to R117): what each leaves and returns, and the words that encode it. -/

namespace Sys2Proof.Machine

/-- A command that is the decoder's one reading of its opcode in format `A`. -/
theorem encodedA_of_decode {op : Byte} {mk : Half → Instr}
    (h : ∀ (a : Half) (v : Byte), decode (op ++ a ++ v) = if v = 0#8 then some (mk a) else none) : EncodedA op mk :=
  ⟨fun a => (h a _).trans (if_pos rfl), fun a v hv => (h a v).trans (if_neg hv)⟩

theorem exec_ck14clr (s : State) : exec .ck14clr s = .next { s with s14 := 0x0000#14, resp := some 0#32 } :=
  exec_accepted (i := .ck14clr) trivial trivial

theorem exec_ck14add (s : State) (a : Half) :
    exec (.ck14add a) s = .next { s with s14 := ck14Word s.params.ck14 s.s14 a, resp := some 0#32 } :=
  exec_accepted (i := .ck14add a) trivial trivial

theorem exec_ck14mem {s : State} {a : Half} (hp : s.ph ≠ .rst) (heven : a.toNat % 2 = 0) (hlt : a.toNat + 1 < s.params.imgLen) :
    exec (.ck14mem a) s =
      .next { s with s14 := ck14Word s.params.ck14 s.s14 (s.img.word a.toNat), resp := some 0#32 } :=
  exec_accepted (i := .ck14mem a) ((imageReadable_iff _).mpr hp) ⟨heven, hlt⟩

theorem exec_rdck14 (s : State) : exec .rdck14 s = .next { s with resp := some (s.s14.setWidth 32) } :=
  exec_accepted (i := .rdck14) trivial trivial

end Sys2Proof.Machine

namespace Sys2Proof

open Machine

/-- Settles O33: the seed by `exec_ck14clr`, the encoding by the decoder's row. -/
theorem ck14ClearSeedsTheAccumulator : Obligations.Ck14ClearSeedsTheAccumulator :=
  ⟨exec_ck14clr, encodedZ_of_decode (decode_append 0x10#8)⟩

/-- Settles O34: the fold by `exec_ck14add`, the encoding by the decoder's row. -/
theorem ck14AddFoldsTheOperand : Obligations.Ck14AddFoldsTheOperand :=
  ⟨exec_ck14add, encodedA_of_decode (decode_append 0x11#8)⟩

/-- Settles O35: accepted, refused by the phase, or refused by the operand. -/
theorem ck14MemFoldsTheImageWord : Obligations.Ck14MemFoldsTheImageWord := by
  refine ⟨fun s a hp heven hlt => exec_ck14mem hp heven hlt, fun s a hp => ?_, fun s a hp ha => ?_,
    encodedA_of_decode (decode_append 0x12#8)⟩
  · exact exec_outOfPhase (i := .ck14mem a) fun h => (imageReadable_iff _).mp h hp
  · exact exec_badOperand (i := .ck14mem a) ((imageReadable_iff _).mpr hp) fun ⟨heven, hlt⟩ => by omega

/-- Settles O36: the response is the accumulator at width 32, which is its number. -/
theorem readCk14ReturnsTheAccumulator : Obligations.ReadCk14ReturnsTheAccumulator :=
  ⟨fun s => by rw [exec_rdck14, BitVec.ofNat_toNat], encodedZ_of_decode (decode_append 0x13#8)⟩

end Sys2Proof
end

section
/-! The recurrences of CK14 (R110, R111, R113): a word as its bit steps, linearity over GF(2) (R112 (c)), and the facts of `V1`
(R118). -/

namespace Sys2Proof.Machine

/-! ## A word is its bit steps (R111) -/

/-- The bits go in from bit `n - 1` down. -/
theorem foldBits_eq_foldl (bit : Acc14 → Bool → Acc14) (w : Half) (n : Nat) (x : Acc14) :
    foldBits bit w n x = (List.range n).foldl (fun s k => bit s (w.getLsbD (n - 1 - k))) x := by
  induction n generalizing x with
  | zero => rfl
  | succ n ih =>
    have hidx : ∀ k, n - 1 - k = n - (k + 1) := by omega
    rw [foldBits_succ, ih, List.range_succ_eq_map, List.foldl_cons, List.foldl_map]
    simp only [hidx, Nat.succ_eq_add_one, Nat.add_sub_cancel, Nat.sub_zero]

/-! ## A bit step of `V1` as arithmetic modulo `2^14` (R110) -/

theorem toNat_append_ofBool (x : Acc14) (b : Bool) : (x ++ BitVec.ofBool b).toNat = 2 * x.toNat + b.toNat := by
  rw [BitVec.toNat_append, ← Nat.shiftLeft_add_eq_or_of_lt (BitVec.isLt _), BitVec.toNat_ofBool, Nat.shiftLeft_eq]
  omega

theorem toNat_ck14BitV1 (x : Acc14) (b : Bool) : (ck14BitV1 x b).toNat =
    if 2 * x.toNat + b.toNat < 2 ^ 14 then 2 * x.toNat + b.toNat else (2 * x.toNat + b.toNat - 2 ^ 14) ^^^ 0x23B1 := by
  have ht := toNat_append_ofBool x b
  have hlow : ((x ++ BitVec.ofBool b).extractLsb' 0 14).toNat = (2 * x.toNat + b.toNat) % 2 ^ 14 := by
    rw [BitVec.extractLsb'_toNat, ht, Nat.shiftRight_zero]
  have htop : (x ++ BitVec.ofBool b).getLsbD 14 = decide (2 ^ 14 ≤ 2 * x.toNat + b.toNat) := by
    rw [← ht]
    exact BitVec.msb_eq_decide (x ++ BitVec.ofBool b)
  have hlt : 2 * x.toNat + b.toNat < 2 ^ 15 := ht ▸ (x ++ BitVec.ofBool b).isLt
  rw [ck14BitV1]
  simp only [htop, decide_eq_true_iff]
  split_ifs with hge hfits hfits
  · omega
  · rw [BitVec.toNat_xor, hlow, Nat.mod_eq_sub_mod hge, Nat.mod_eq_of_lt (by omega)]
    rfl
  · rw [hlow, Nat.mod_eq_of_lt hfits]
  · omega

/-! ## Bit steps as XORs -/

theorem ck14BitV1_eq (x : Acc14) (b : Bool) : ck14BitV1 x b =
    x <<< 1 ^^^ (BitVec.ofBool b).setWidth 14 ^^^ if x.getLsbD 13 then Config.poly14 else 0#14 := by
  have hlow : (x ++ BitVec.ofBool b).extractLsb' 0 14 = x <<< 1 ^^^ (BitVec.ofBool b).setWidth 14 := by
    refine BitVec.eq_of_getLsbD_eq fun k (hk : k < 14) => ?_
    rw [BitVec.getLsbD_extractLsb', BitVec.getLsbD_append, BitVec.getLsbD_xor, BitVec.getLsbD_shiftLeft, BitVec.getLsbD_setWidth]
    rcases k with _ | k <;> simp [hk]
  have htop : (x ++ BitVec.ofBool b).getLsbD 14 = x.getLsbD 13 := BitVec.getLsbD_append
  rw [ck14BitV1]
  simp only [htop, hlow]
  split_ifs
  · rfl
  · exact BitVec.xor_zero.symm

theorem ck14BitV2_eq (x : Acc14) (b : Bool) : ck14BitV2 x b =
    x <<< 1 ^^^ if x.getLsbD 13 ^^ b then Config.poly14 else 0#14 := by
  have hshift : x.extractLsb' 0 13 ++ 0#1 = (x <<< 1 : Acc14) := by
    refine BitVec.eq_of_getLsbD_eq fun k (hk : k < 14) => ?_
    rw [BitVec.getLsbD_append, BitVec.getLsbD_shiftLeft, BitVec.getLsbD_extractLsb']
    rcases k with _ | k
    · simp
    · simp [hk, show k < 13 by omega]
  show (if x.getLsbD 13 ^^ b then (x.extractLsb' 0 13 ++ 0#1) ^^^ Config.poly14 else x.extractLsb' 0 13 ++ 0#1) = _
  rw [hshift]
  split_ifs
  · rfl
  · exact BitVec.xor_zero.symm

/-- The step of `V2` in the words of R113: the constant where the top bit and the input bit differ. -/
theorem ck14BitV2_eq_ite (x : Acc14) (b : Bool) :
    ck14BitV2 x b = if x.getLsbD 13 ≠ b then (x <<< 1) ^^^ Config.poly14 else x <<< 1 := by
  rw [ck14BitV2_eq]
  cases x.getLsbD 13 <;> cases b <;> simp

/-! ## Linearity (R112 (c)) -/

/-- A constant selected by the XOR of two bits is selected once by each. -/
theorem ite_bxor {n : Nat} (c d : Bool) (v : BitVec n) :
    (if c ^^ d then v else 0#n) = (if c then v else 0#n) ^^^ if d then v else 0#n := by
  cases c <;> cases d <;> simp

theorem ck14BitV1_xor (x y : Acc14) (b c : Bool) : ck14BitV1 (x ^^^ y) (b ^^ c) = ck14BitV1 x b ^^^ ck14BitV1 y c := by
  have hofBool : BitVec.ofBool (b ^^ c) = BitVec.ofBool b ^^^ BitVec.ofBool c := by cases b <;> cases c <;> rfl
  rw [ck14BitV1_eq, ck14BitV1_eq, ck14BitV1_eq, BitVec.getLsbD_xor, ite_bxor, BitVec.shiftLeft_xor_distrib, hofBool,
    BitVec.setWidth_xor, xor_xor_xor_comm (x <<< 1), xor_xor_xor_comm]

theorem ck14BitV2_xor (x y : Acc14) (b c : Bool) : ck14BitV2 (x ^^^ y) (b ^^ c) = ck14BitV2 x b ^^^ ck14BitV2 y c := by
  have hfeedback : ((x ^^^ y).getLsbD 13 ^^ (b ^^ c)) = ((x.getLsbD 13 ^^ b) ^^ (y.getLsbD 13 ^^ c)) := by
    rw [BitVec.getLsbD_xor, Bool.xor_assoc, Bool.xor_assoc, Bool.xor_left_comm (y.getLsbD 13)]
  rw [ck14BitV2_eq, ck14BitV2_eq, ck14BitV2_eq, hfeedback, ite_bxor, BitVec.shiftLeft_xor_distrib, xor_xor_xor_comm]

/-- A word of linear bit steps is linear. -/
theorem foldBits_xor {bit : Acc14 → Bool → Acc14} (h : ∀ x y b c, bit (x ^^^ y) (b ^^ c) = bit x b ^^^ bit y c) (w u : Half)
    (n : Nat) (x y : Acc14) : foldBits bit (w ^^^ u) n (x ^^^ y) = foldBits bit w n x ^^^ foldBits bit u n y := by
  induction n generalizing x y with
  | zero => rfl
  | succ n ih => rw [foldBits_succ, foldBits_succ, foldBits_succ, ← ih, BitVec.getLsbD_xor, h]

theorem ck14ShiftV3_xor (t u : Half) : ck14ShiftV3 (t ^^^ u) = ck14ShiftV3 t ^^^ ck14ShiftV3 u := by
  have h := Ck14Recurrence.foldIf_xor (t.getLsbD 0) (u.getLsbD 0) (t >>> 1) (u >>> 1)
  rwa [← BitVec.getLsbD_xor, ← BitVec.ushiftRight_xor_distrib] at h

theorem ck14ShiftsV3_xor (n : Nat) (t u : Half) : ck14ShiftsV3 n (t ^^^ u) = ck14ShiftsV3 n t ^^^ ck14ShiftsV3 n u := by
  induction n generalizing t u with
  | zero => rfl
  | succ n ih => rw [ck14ShiftsV3_succ, ck14ShiftsV3_succ, ck14ShiftsV3_succ, ck14ShiftV3_xor, ih]

theorem ck14WordV3_xor (x y : Acc14) (w u : Half) : ck14WordV3 (x ^^^ y) (w ^^^ u) = ck14WordV3 x w ^^^ ck14WordV3 y u := by
  rw [ck14WordV3, BitVec.setWidth_xor, xor_xor_xor_comm, ck14ShiftsV3_xor, BitVec.extractLsb'_xor]; rfl

theorem ck14Word_xor (v : Ck14Variant) (x y : Acc14) (w u : Half) :
    ck14Word v (x ^^^ y) (w ^^^ u) = ck14Word v x w ^^^ ck14Word v y u := by
  cases v with
  | v1 => exact foldBits_xor ck14BitV1_xor w u 16 x y
  | v2 => exact foldBits_xor ck14BitV2_xor w u 16 x y
  | v3 => exact ck14WordV3_xor x y w u
  | other f => exact f.val.apply_xor x y w u

@[simp] theorem ck14Word_zero (v : Ck14Variant) : ck14Word v 0#14 0#16 = 0#14 := by
  simpa using ck14Word_xor v 0#14 0#14 0#16 0#16

/-! ## The shifts of `V3` (R113) -/

/-- A sequence that follows the shift is the loop's, from any of its values on. -/
theorem ck14ShiftsV3_of_recurrence {t : Nat → Half} (h : ∀ n, t (n + 1) = ck14ShiftV3 (t n)) (n k : Nat) :
    ck14ShiftsV3 n (t k) = t (k + n) := by
  induction n generalizing k with
  | zero => rfl
  | succ n ih => rw [ck14ShiftsV3_succ, ← h, ih, Nat.add_right_comm, Nat.add_assoc]

/-- A shift clears the top bit, and the constant sets no bit above 13. -/
theorem toNat_ck14ShiftV3_lt {t : Half} {m : Nat} (hm : 14 ≤ m) (h : t.toNat < 2 ^ (m + 1)) : (ck14ShiftV3 t).toNat < 2 ^ m := by
  have hshift : (t >>> 1).toNat < 2 ^ m := by
    rw [BitVec.toNat_ushiftRight, Nat.shiftRight_eq_div_pow]; omega
  have hpoly : (Config.poly14.setWidth 16).toNat < 2 ^ m :=
    lt_of_lt_of_le (by decide : _ < 2 ^ 14) (Nat.pow_le_pow_right (by decide) hm)
  rw [ck14ShiftV3]
  split_ifs
  · rw [BitVec.toNat_xor]
    exact Nat.xor_lt_two_pow hshift hpoly
  · exact hshift

/-- From the second shift on the value has 14 bits. -/
theorem toNat_lt_of_recurrence {t : Nat → Half} (h : ∀ n, t (n + 1) = ck14ShiftV3 (t n)) (n : Nat) :
    (t (n + 2)).toNat < 2 ^ 14 := by
  induction n with
  | zero => rw [h, h]; exact toNat_ck14ShiftV3_lt le_rfl (toNat_ck14ShiftV3_lt (by decide) (t 0).isLt)
  | succ n ih => rw [h]; exact toNat_ck14ShiftV3_lt le_rfl (ih.trans (by decide))

theorem extractLsb'_high_eq_zero {t : Half} (h : t.toNat < 2 ^ 14) : t.extractLsb' 14 2 = 0#2 := by
  apply BitVec.eq_of_toNat_eq
  rw [BitVec.extractLsb'_toNat, Nat.shiftRight_eq_div_pow, Nat.div_eq_of_lt h]
  rfl

/-! ## A word of `V1` (R118) -/

/-- While no bit leaves the top, the state is the part of the word that has entered: nothing is folded. -/
theorem toNat_foldBits_v1 {w : Half} (hw : w.toNat < 2 ^ 14) (n : Nat) (x : Acc14) (hx : x.toNat = w.toNat / 2 ^ n) :
    (foldBits ck14BitV1 w n x).toNat = w.toNat := by
  induction n generalizing x with
  | zero => rw [foldBits_zero, hx, Nat.pow_zero, Nat.div_one]
  | succ n ih =>
    rw [foldBits_succ]
    apply ih
    have hnext : 2 * x.toNat + (w.getLsbD n).toNat = w.toNat / 2 ^ n := by
      rw [hx, Nat.pow_succ, ← Nat.div_div_eq_div_mul, BitVec.getLsbD, Nat.toNat_testBit]
      exact Nat.div_add_mod _ 2
    rw [toNat_ck14BitV1, hnext, if_pos (lt_of_le_of_lt (Nat.div_le_self _ _) hw)]

/-- A state that a 0 bit sends to 0 is 0: the constant is odd, so a fold leaves bit 0 set. -/
theorem eq_zero_of_ck14BitV1_eq_zero {x : Acc14} (h : ck14BitV1 x false = 0#14) : x = 0#14 := by
  have hx := toNat_ck14BitV1 x false
  rw [h, BitVec.toNat_zero, Bool.toNat_false, Nat.add_zero] at hx
  apply BitVec.eq_of_toNat_eq
  rw [BitVec.toNat_zero]
  split_ifs at hx
  · omega
  · have hfold := Nat.xor_eq_zero_iff.mp hx.symm
    omega

theorem ck14BitV1_injective (b : Bool) : Function.Injective fun x => ck14BitV1 x b := by
  intro x y h
  have hxor := ck14BitV1_xor x y b b
  rw [Bool.xor_self, show ck14BitV1 x b = ck14BitV1 y b from h, BitVec.xor_self] at hxor
  exact BitVec.xor_eq_zero_iff.mp (eq_zero_of_ck14BitV1_eq_zero hxor)

theorem foldBits_injective {bit : Acc14 → Bool → Acc14} (h : ∀ b, Function.Injective fun x => bit x b) (w : Half) (n : Nat) :
    Function.Injective (foldBits bit w n) := by
  induction n with
  | zero => exact Function.injective_id
  | succ n ih =>
    intro x y hxy
    rw [foldBits_succ, foldBits_succ] at hxy
    exact h _ (ih hxy)

end Sys2Proof.Machine

namespace Sys2Proof

open Machine

/-- Settles O37: the step by `toNat_ck14BitV1`, the word by `foldBits_eq_foldl`, sequences by `ck14Seq_append`. -/
theorem ck14WordIsSixteenBitSteps : Obligations.Ck14WordIsSixteenBitSteps :=
  ⟨toNat_ck14BitV1, fun x w => foldBits_eq_foldl ck14BitV1 w 16 x,
    fun v x ws us => ⟨rfl, ck14Seq_append v x ws us, fun _ => rfl⟩⟩

/-- Settles O38, variant by variant in `ck14Word_xor`. -/
theorem ck14WordIsLinear : Obligations.Ck14WordIsLinear :=
  fun v x y w u => ⟨ck14Word_xor v x y w u, ck14Word_zero v⟩

/-- Settles O40: `V2` as sixteen steps, `V3` as the value of any sequence that follows its shift, and the printed values by
evaluation. -/
theorem ck14AlternativesFollowTheirRecurrences : Obligations.Ck14AlternativesFollowTheirRecurrences := by
  refine ⟨fun x w => ?_, fun x w t h0 hstep => ⟨?_, fun n hn _ => ?_⟩,
    ⟨ck14Word_zero _, ck14Word_zero _, ck14Word_zero _⟩, by decide, by decide, by decide⟩
  · exact (foldBits_eq_foldl ck14BitV2 w 16 x).trans (by simp only [ck14BitV2_eq_ite])
  · have hlast := ck14ShiftsV3_of_recurrence hstep 16 0
    rw [h0, Nat.zero_add] at hlast
    exact congrArg (BitVec.extractLsb' 0 14) hlast
  · obtain ⟨k, rfl⟩ := Nat.exists_eq_add_of_le' hn
    exact extractLsb'_high_eq_zero (toNat_lt_of_recurrence hstep k)

/-- Settles O41: a 14-bit word never folds the constant, and on the finitely many states an injection is a bijection. -/
theorem ck14V1CopiesAndPermutes : Obligations.Ck14V1CopiesAndPermutes := by
  refine ⟨fun w hw => toNat_foldBits_v1 hw 16 0#14 (Nat.div_eq_of_lt w.isLt).symm, fun w => ?_⟩
  have hfinite : Finite Acc14 := Finite.of_injective _ BitVec.toFin_injective
  exact Finite.injective_iff_bijective.mp (foldBits_injective ck14BitV1_injective w 16)

end Sys2Proof
end

section
/-! The admissible recurrences of CK14 (R112): what `Ck14Recurrence.meetsR112` tests on single bits holds of all states and words, and
every variant is a recurrence that meets it. -/

namespace Sys2Proof

theorem Ck14Step.runAll_eq_foldl (w : Half) (l : List Ck14Step) (x : Half) :
    runAll w l x = l.foldl (fun t e => e.run w t) x := by
  induction l generalizing x with
  | nil => rfl
  | cons e l ih => rw [runAll, Machine.force_eq, ih, List.foldl_cons]

namespace Ck14Recurrence

variable {r q : Ck14Recurrence}

/-! ## The function of a recurrence -/

theorem toList_steps (r : Ck14Recurrence) : r.steps.toList = (List.finRange 16).map r.steps.get := by
  apply List.ext_getElem <;> simp [Vector.get]

theorem apply_eq_foldl (r : Ck14Recurrence) (x : Acc14) (w : Half) : r.apply x w =
    ((List.finRange 16).foldl (fun t k => (r.steps.get k).run w t) (x.setWidth 16)).setWidth 14 := by
  rw [apply, Ck14Step.runAll_eq_foldl, toList_steps, List.foldl_map]

/-- A change of the word changes the result by what the change alone gives. -/
theorem apply_xor_word (r : Ck14Recurrence) (x : Acc14) (w u : Half) : r.apply x (w ^^^ u) = r.apply x w ^^^ r.apply 0#14 u := by
  simpa using r.apply_xor x 0#14 w u

theorem apply_eq_xor (r : Ck14Recurrence) (x : Acc14) (w : Half) : r.apply x w = r.apply x 0#16 ^^^ r.apply 0#14 w := by
  simpa using r.apply_xor_word x 0#16 w

/-- What a word leaves of the zero state, folded with the zero word, is linear in the word. -/
theorem apply_apply_xor (r : Ck14Recurrence) (w u : Half) : r.apply (r.apply 0#14 (w ^^^ u)) 0#16 =
    r.apply (r.apply 0#14 w) 0#16 ^^^ r.apply (r.apply 0#14 u) 0#16 := by
  simpa [apply_xor_word] using r.apply_xor (r.apply 0#14 w) (r.apply 0#14 u) 0#16 0#16

/-! ## R112 of all states and words, and of single bits -/

/-- Whether a change of the word is seen does not depend on the state and the word (b). -/
theorem apply_xor_word_eq_iff (r : Ck14Recurrence) (x : Acc14) (w u : Half) :
    r.apply x (w ^^^ u) = r.apply x w ↔ r.apply 0#14 u = 0#14 := by
  rw [apply_xor_word, ← BitVec.xor_right_inj (y := 0#14) (r.apply x w), BitVec.xor_zero]

/-- Two recurrences that differ at all differ on a single bit (c). -/
theorem exists_apply_ne_iff : (∃ x w, r.apply x w ≠ q.apply x w) ↔
    (∃ k < 14, r.apply (BitVec.twoPow 14 k) 0#16 ≠ q.apply (BitVec.twoPow 14 k) 0#16) ∨
      ∃ k < 16, r.apply 0#14 (BitVec.twoPow 16 k) ≠ q.apply 0#14 (BitVec.twoPow 16 k) := by
  constructor
  · rintro ⟨x, w, hne⟩
    by_contra! hsame
    obtain ⟨hstate, hword⟩ := hsame
    exact hne (linear_ext r.apply_xor q.apply_xor hstate hword x w)
  · rintro (⟨k, -, hne⟩ | ⟨k, -, hne⟩)
    · exact ⟨_, _, hne⟩
    · exact ⟨_, _, hne⟩

/-- If the zero word keeps what each bit leaves, it keeps what every word leaves, and no order counts (g). -/
theorem exists_order_ne_iff : (∃ a b, r.apply (r.apply 0#14 a) b ≠ r.apply (r.apply 0#14 b) a) ↔
    ∃ k < 16, r.apply (r.apply 0#14 (BitVec.twoPow 16 k)) 0#16 ≠ r.apply 0#14 (BitVec.twoPow 16 k) := by
  constructor
  · rintro ⟨a, b, hne⟩
    by_contra! hkept
    have hword (w : Half) : r.apply (r.apply 0#14 w) 0#16 = r.apply 0#14 w :=
      linear_ext (f := fun _ w => r.apply (r.apply 0#14 w) 0#16) (g := fun _ w => r.apply 0#14 w)
        (fun _ _ => r.apply_apply_xor) (fun _ _ => r.apply_xor_word 0#14) (fun _ _ => by simp) hkept 0#14 w
    apply hne
    rw [apply_eq_xor, apply_eq_xor _ (r.apply 0#14 b), hword, hword, BitVec.xor_comm]
  · rintro ⟨k, -, hne⟩
    exact ⟨BitVec.twoPow 16 k, 0#16, by rwa [apply_zero]⟩

/-- What `meetsR112` tests on single bits is R112 (b, c, g) of all states and words. -/
theorem meetsR112_iff : r.meetsR112 = true ↔ r.wordBits.Nodup ∧
    (∀ x w k, k < 16 → r.apply x (w ^^^ BitVec.twoPow 16 k) ≠ r.apply x w) ∧
    (∃ x w, r.apply x w ≠ r.withoutPoly.apply x w) ∧
    ∃ a b, r.apply (r.apply 0#14 a) b ≠ r.apply (r.apply 0#14 b) a := by
  rw [exists_apply_ne_iff, exists_order_ne_iff]
  simp [meetsR112, apply_xor_word_eq_iff, and_assoc]

end Ck14Recurrence

/-! ## The variants as recurrences -/

open Machine

/-- A variant is any recurrence that agrees with it on the single bits. -/
theorem ck14Word_eq_apply {v : Ck14Variant} {r : Ck14Recurrence}
    (hx : ∀ k < 14, ck14Word v (BitVec.twoPow 14 k) 0#16 = r.apply (BitVec.twoPow 14 k) 0#16)
    (hw : ∀ k < 16, ck14Word v 0#14 (BitVec.twoPow 16 k) = r.apply 0#14 (BitVec.twoPow 16 k)) (x : Acc14) (w : Half) :
    ck14Word v x w = r.apply x w :=
  linear_ext (ck14Word_xor v) r.apply_xor hx hw x w

/-- Every variant is an admissible recurrence: those the spec names by their values at the thirty single bits. -/
theorem exists_function_of_variant (v : Ck14Variant) : ∃ f : Ck14Function, ∀ x w, ck14Word v x w = f.val.apply x w := by
  cases v with
  | v1 => exact ⟨⟨.v1, by decide +kernel⟩, ck14Word_eq_apply (by decide) (by decide)⟩
  | v2 => exact ⟨⟨.v2, by decide +kernel⟩, ck14Word_eq_apply (by decide) (by decide)⟩
  | v3 => exact ⟨⟨.v3, by decide +kernel⟩, ck14Word_eq_apply (by decide) (by decide)⟩
  | other f => exact ⟨f, fun _ _ => rfl⟩

/-- Settles O39: the clauses on variants are `meetsR112_iff` of the variant's recurrence, and the last is its converse. -/
theorem ck14VariantsAreTheAdmissibleFunctions : Obligations.Ck14VariantsAreTheAdmissibleFunctions := by
  refine ⟨Ck14Recurrence.apply_eq_foldl, fun v => ?_, fun v x w k hk => ?_, fun v => ?_,
    fun r hbits hpoly hflip horder => ?_⟩
  · obtain ⟨⟨r, hr⟩, hv⟩ := exists_function_of_variant v
    obtain ⟨hbits, -, hpoly, -⟩ := Ck14Recurrence.meetsR112_iff.mp hr
    exact ⟨r, hv, hbits, hpoly⟩
  · obtain ⟨⟨r, hr⟩, hv⟩ := exists_function_of_variant v
    obtain ⟨-, hflip, -, -⟩ := Ck14Recurrence.meetsR112_iff.mp hr
    rw [hv, hv]
    exact hflip x w k hk
  · obtain ⟨⟨r, hr⟩, hv⟩ := exists_function_of_variant v
    obtain ⟨-, -, -, a, b, horder⟩ := Ck14Recurrence.meetsR112_iff.mp hr
    refine ⟨a, b, fun hab => horder (by rw [hab]), ?_⟩
    simpa only [ck14Seq, hv] using horder
  · exact ⟨.other ⟨r, Ck14Recurrence.meetsR112_iff.mpr ⟨hbits, hflip, hpoly, horder⟩⟩, fun _ _ => rfl⟩

end Sys2Proof
end

section
/-! The scan by engine-level commands against the scan of `PLACE` (R116, R172). -/

namespace Sys2Proof.Machine

variable {s : State}

/-- `CK14MEM` at a list of even offsets of the image folds their words in, in the list's order. -/
theorem execAll_ck14mem (hp : s.ph ≠ .rst) (hresp : s.resp = some 0#32) (as : List Nat)
    (has : ∀ a ∈ as, a % 2 = 0 ∧ a + 1 < s.params.imgLen) :
    execAll (as.map fun a => .ck14mem (BitVec.ofNat 16 a)) s =
      .next { s with s14 := ck14Seq s.params.ck14 s.s14 (as.map s.img.word) } := by
  induction as generalizing s with
  | nil => rfl
  | cons a as ih =>
    obtain ⟨⟨heven, hlt⟩, has⟩ := List.forall_mem_cons.mp has
    have hlen := s.params.imgLen_le
    have ha : (BitVec.ofNat 16 a).toNat = a := Nat.mod_eq_of_lt (by omega)
    have hexec := exec_ck14mem (a := BitVec.ofNat 16 a) hp (by rwa [ha]) (by rwa [ha])
    rw [ha, ← hresp] at hexec
    rw [List.map_cons, execAll_cons_next hexec]
    exact ih hp hresp has

/-- `CK14CLR` and `CK14MEM` over the window leave its checksum. -/
theorem execAll_engineScan (hp : s.ph ≠ .rst) :
    execAll (.ck14clr :: (List.range 7551).map fun k => .ck14mem (BitVec.ofNat 16 (0x0400 + 2 * k))) s =
      .next { s with s14 := windowSum s.params.ck14 s.img, resp := some 0#32 } := by
  have hoffsets : ∀ a ∈ (List.range 7551).map (0x0400 + 2 * ·), a % 2 = 0 ∧ a + 1 < s.params.imgLen := by
    have hsize := s.params.winHi_le_pmSize
    have hlen := s.params.imgLen_eq
    simp only [List.forall_mem_map, List.mem_range]
    omega
  have hmem := execAll_ck14mem (s := { s with s14 := 0#14, resp := some 0#32 }) hp rfl _ hoffsets
  rw [List.map_map, List.map_map] at hmem
  rw [execAll_cons_next (exec_ck14clr s), windowSum_eq]
  exact hmem

/-- Past the `OOB` gate `PLACE` leaves the window's checksum, whatever the slot holds. -/
theorem s14_afterPlace {b : Block} (p : Params) (h : b.oob = false) : (afterPlace p b).s14 = windowSum p.ck14 b.img := by
  rw [afterPlace, h, if_neg Bool.false_ne_true]
  split_ifs <;> rfl

end Sys2Proof.Machine

namespace Sys2Proof

open Machine

/-- Settles O49: both sides leave the window's checksum. -/
theorem engineScanEqualsPlace : Obligations.EngineScanEqualsPlace := by
  intro s hp hoob
  have hready : s.ph ≠ .rst := by rw [hp]; decide
  exact ⟨_, _, execAll_engineScan hready, exec_accepted (i := .place) hp trivial, (s14_afterPlace s.params hoob).symm, rfl⟩

end Sys2Proof
end

section
/-! The commands of the CRC-32 engine (R134 to R137): what each leaves and returns, and the words that encode it. -/

namespace Sys2Proof.Machine

/-- A command that is the decoder's one reading of its opcode in format `B`. -/
theorem encodedB_of_decode {op : Byte} {mk : Byte → Instr}
    (h : ∀ (a : Half) (v : Byte), decode (op ++ a ++ v) = if a = 0#16 then some (mk v) else none) : EncodedB op mk :=
  ⟨fun v => (h _ v).trans (if_pos rfl), fun a v ha => (h a v).trans (if_neg ha)⟩

theorem exec_crc32seed (s : State) : exec .crc32seed s = .next { s with c32 := 0xFFFFFFFF#32, resp := some 0#32 } :=
  exec_accepted (i := .crc32seed) trivial trivial

theorem exec_crc32b (s : State) (v : Byte) :
    exec (.crc32b v) s = .next { s with c32 := crc32Byte s.c32 v, resp := some 0#32 } :=
  exec_accepted (i := .crc32b v) trivial trivial

theorem exec_crc32mem {s : State} {a : Half} (hp : s.ph ≠ .rst) (ha : a.toNat < s.params.imgLen) :
    exec (.crc32mem a) s = .next { s with c32 := crc32Byte s.c32 (s.img.read a.toNat), resp := some 0#32 } :=
  exec_accepted (i := .crc32mem a) ((imageReadable_iff _).mpr hp) ha

theorem exec_rdcrc32 (s : State) : exec .rdcrc32 s = .next { s with resp := some s.c32 } :=
  exec_accepted (i := .rdcrc32) trivial trivial

end Sys2Proof.Machine

namespace Sys2Proof

open Machine

/-- Settles O42: the seed by `exec_crc32seed`, the encoding by the decoder's row. -/
theorem crc32SeedLoadsTheInitialValue : Obligations.Crc32SeedLoadsTheInitialValue :=
  ⟨exec_crc32seed, encodedZ_of_decode (decode_append 0x20#8)⟩

/-- Settles O43: the fold by `exec_crc32b`, the encoding by the decoder's row. -/
theorem crc32ByteFoldsTheOperand : Obligations.Crc32ByteFoldsTheOperand :=
  ⟨exec_crc32b, encodedB_of_decode (decode_append 0x21#8)⟩

/-- Settles O44: accepted, refused by the phase, or refused by the operand. -/
theorem crc32MemFoldsTheImageByte : Obligations.Crc32MemFoldsTheImageByte := by
  refine ⟨fun s a hp ha => exec_crc32mem hp ha, fun s a hp => ?_, fun s a hp ha => ?_,
    encodedA_of_decode (decode_append 0x22#8)⟩
  · exact exec_outOfPhase (i := .crc32mem a) fun h => (imageReadable_iff _).mp h hp
  · exact exec_badOperand (i := .crc32mem a) ((imageReadable_iff _).mpr hp) (Nat.not_lt.mpr ha)

/-- Settles O45: the response is the register itself, the encoding is the decoder's row. -/
theorem readCrc32ReturnsTheValue : Obligations.ReadCrc32ReturnsTheValue :=
  ⟨exec_rdcrc32, encodedZ_of_decode (decode_append 0x23#8)⟩

end Sys2Proof
end

section
/-! The CRC-32 recurrence (R130 to R132): a byte as eight shift steps from the running value, linearity over GF(2), injectivity, and
sequences of bytes (R138). -/

namespace Sys2Proof.Machine

/-! ## One shift step (R130) -/

/-- The step as an XOR of the shifted word and the selected constant. -/
theorem crc32Shift_eq (c : Word) : crc32Shift c = c >>> 1 ^^^ if c.getLsbD 0 then Config.poly32 else 0#32 := by
  rw [crc32Shift]
  split_ifs
  · rfl
  · exact BitVec.xor_zero.symm

theorem crc32Shift_of_low_zero {c : Word} (h : c.getLsbD 0 = false) : crc32Shift c = c >>> 1 := by
  rw [crc32Shift, if_neg (Bool.eq_false_iff.mp h)]

theorem crc32Shift_xor (c d : Word) : crc32Shift (c ^^^ d) = crc32Shift c ^^^ crc32Shift d := by
  rw [crc32Shift_eq, crc32Shift_eq, crc32Shift_eq, BitVec.getLsbD_xor, ite_bxor, BitVec.ushiftRight_xor_distrib,
    xor_xor_xor_comm]

/-- The constant's top bit shows which word was shifted out. -/
theorem getLsbD_crc32Shift_top (c : Word) : (crc32Shift c).getLsbD 31 = c.getLsbD 0 := by
  rw [crc32Shift_eq, BitVec.getLsbD_xor, BitVec.getLsbD_ushiftRight, BitVec.getLsbD_of_ge c _ (by decide), Bool.false_xor]
  cases c.getLsbD 0 <;> rfl

/-- No word but 0 is sent to 0: the bit shifted out comes back in at the top. -/
theorem eq_zero_of_crc32Shift_eq_zero {c : Word} (h : crc32Shift c = 0#32) : c = 0#32 := by
  have hlow : c.getLsbD 0 = false := by rw [← getLsbD_crc32Shift_top, h]; rfl
  have hhigh : c >>> 1 = 0#32 := (crc32Shift_of_low_zero hlow).symm.trans h
  refine BitVec.eq_of_getLsbD_eq fun k _ => ?_
  rcases k with _ | k
  · rw [hlow]; rfl
  · have hbit := congrArg (BitVec.getLsbD · k) hhigh
    simpa [Nat.add_comm 1 k] using hbit

theorem crc32Shift_injective : Function.Injective crc32Shift := by
  intro c d h
  have hxor := crc32Shift_xor c d
  rw [h, BitVec.xor_self] at hxor
  exact BitVec.xor_eq_zero_iff.mp (eq_zero_of_crc32Shift_eq_zero hxor)

/-! ## Shift steps in a row -/

theorem crc32Shifts_xor (n : Nat) (c d : Word) : crc32Shifts n (c ^^^ d) = crc32Shifts n c ^^^ crc32Shifts n d := by
  induction n generalizing c d with
  | zero => rfl
  | succ n ih => rw [crc32Shifts_succ, crc32Shifts_succ, crc32Shifts_succ, crc32Shift_xor, ih]

theorem crc32Shifts_injective (n : Nat) : Function.Injective (crc32Shifts n) := by
  induction n with
  | zero => exact Function.injective_id
  | succ n ih =>
    intro c d h
    rw [crc32Shifts_succ, crc32Shifts_succ] at h
    exact crc32Shift_injective (ih h)

theorem crc32Shifts_eq_foldl (n : Nat) (c : Word) :
    crc32Shifts n c = (List.range n).foldl (fun x _ => crc32Shift x) c := by
  induction n generalizing c with
  | zero => rfl
  | succ n ih => rw [crc32Shifts_succ, ih, List.range_succ_eq_map, List.foldl_cons, List.foldl_map]

/-- Steps that shift out zeros only shift. -/
theorem crc32Shifts_of_low_zero {n : Nat} {c : Word} (h : ∀ k < n, c.getLsbD k = false) : crc32Shifts n c = c >>> n := by
  induction n generalizing c with
  | zero => rfl
  | succ n ih =>
    rw [crc32Shifts_succ, crc32Shift_of_low_zero (h 0 n.succ_pos), ih fun k hk => ?_, ← BitVec.shiftRight_add, Nat.add_comm]
    rw [BitVec.getLsbD_ushiftRight, h _ (by omega)]

/-! ## The byte step (R131) -/

/-- The table is indexed by the low byte of the running value XOR the input; the rest of the value enters above it. -/
theorem xor_setWidth_eq_index_xor_rest (c : Word) (b : Byte) :
    c ^^^ b.setWidth 32 = (c.extractLsb' 0 8 ^^^ b).setWidth 32 ^^^ (c >>> 8) <<< 8 := by
  refine BitVec.eq_of_getLsbD_eq fun k hk => ?_
  by_cases h : k < 8
  · simp [hk, h]
  · simp [hk, h, show 8 + (k - 8) = k by omega, BitVec.getLsbD_of_ge b k (by omega)]

/-- The table lookup stands for eight shift steps. -/
theorem crc32Byte_eq_crc32Shifts (c : Word) (b : Byte) : crc32Byte c b = crc32Shifts 8 (c ^^^ b.setWidth 32) := by
  have hrest : crc32Shifts 8 ((c >>> 8) <<< 8) = c >>> 8 := by
    rw [crc32Shifts_of_low_zero fun k hk => by simp [hk]]
    refine BitVec.eq_of_getLsbD_eq fun k hk => ?_
    by_cases h : 8 + k < 32
    · simp [h]
    · simp [h, BitVec.getLsbD_of_ge c (8 + k) (by omega)]
  rw [xor_setWidth_eq_index_xor_rest, crc32Shifts_xor, hrest, crc32Byte, t32]

theorem crc32Byte_xor (c d : Word) (b e : Byte) : crc32Byte (c ^^^ d) (b ^^^ e) = crc32Byte c b ^^^ crc32Byte d e := by
  rw [crc32Byte_eq_crc32Shifts, crc32Byte_eq_crc32Shifts, crc32Byte_eq_crc32Shifts, BitVec.setWidth_xor, xor_xor_xor_comm,
    crc32Shifts_xor]

theorem crc32Byte_injective (b : Byte) : Function.Injective fun c => crc32Byte c b := by
  intro c d h
  simp only [crc32Byte_eq_crc32Shifts] at h
  exact (BitVec.xor_left_inj _).mp (crc32Shifts_injective 8 h)

/-! ## Sequences (R132) -/

theorem crc32Bytes_append (c : Word) (xs ys : List Byte) :
    crc32Bytes c (xs ++ ys) = crc32Bytes (crc32Bytes c xs) ys := by
  induction xs generalizing c with
  | nil => rfl
  | cons x xs ih => exact ih _

end Sys2Proof.Machine

namespace Sys2Proof

open Machine

/-- Settles O46: the lookup is eight shift steps (`crc32Byte_eq_crc32Shifts`), and these are the fold. -/
theorem crc32TableFormIsBitSerial : Obligations.Crc32TableFormIsBitSerial :=
  fun c b => (crc32Byte_eq_crc32Shifts c b).trans (crc32Shifts_eq_foldl 8 _)

/-- Settles O47: the fold's two equations, and `CRC32_XOROUT` is none. -/
theorem crc32FoldsFirstByteFirst : Obligations.Crc32FoldsFirstByteFirst :=
  ⟨fun _ => rfl, fun _ _ _ => rfl, crcResult_eq, rfl⟩

/-- Settles O48: on the finitely many running values an injection is a bijection; the printed values by evaluation. -/
theorem crc32IsLinearBijectiveAndSplits : Obligations.Crc32IsLinearBijectiveAndSplits := by
  have hfinite : Finite Word := Finite.of_injective _ BitVec.toFin_injective
  exact ⟨crc32Byte_xor, by decide, fun b => Finite.injective_iff_bijective.mp (crc32Byte_injective b), crc32Bytes_append,
    by decide, by decide⟩

end Sys2Proof
end

section
/-! The CRC by engine-level commands against the CRC field of the suffix (R136, R192). -/

namespace Sys2Proof.Machine

variable {s : State}

/-- `CRC32MEM` at a list of offsets of the image folds their bytes in, in the list's order. -/
theorem execAll_crc32mem (hp : s.ph ≠ .rst) (hresp : s.resp = some 0#32) (as : List Nat)
    (has : ∀ a ∈ as, a < s.params.imgLen) :
    execAll (as.map fun a => .crc32mem (BitVec.ofNat 16 a)) s =
      .next { s with c32 := crc32Bytes s.c32 (as.map s.img.read) } := by
  induction as generalizing s with
  | nil => rfl
  | cons a as ih =>
    obtain ⟨hlt, has⟩ := List.forall_mem_cons.mp has
    have ha : (BitVec.ofNat 16 a).toNat = a := Nat.mod_eq_of_lt (hlt.trans_le s.params.imgLen_le)
    have hexec := exec_crc32mem (a := BitVec.ofNat 16 a) hp (by rwa [ha])
    rw [ha, ← hresp] at hexec
    rw [List.map_cons, execAll_cons_next hexec]
    exact ih hp hresp has

/-- `CRC32SEED` and `CRC32MEM` over a prefix of the image leave its CRC. -/
theorem execAll_engineCrc (hp : s.ph ≠ .rst) {n : Nat} (hn : n ≤ s.params.imgLen) :
    execAll (.crc32seed :: (List.range n).map fun k => .crc32mem (BitVec.ofNat 16 k)) s =
      .next { s with c32 := prefixCrc s.img n, resp := some 0#32 } := by
  rw [execAll_cons_next (exec_crc32seed s), prefixCrc_eq]
  exact execAll_crc32mem (s := { s with c32 := 0xFFFFFFFF#32, resp := some 0#32 }) hp rfl _
    fun a ha => (List.mem_range.mp ha).trans_le hn

end Sys2Proof.Machine

namespace Sys2Proof

open Machine

/-- Settles O50: the engine leaves the CRC of everything before the CRC field, which the invariant says stands there. -/
theorem engineCrcEqualsTheSuffixField : Obligations.EngineCrcEqualsTheSuffixField := by
  intro s hinv hp
  obtain ⟨-, hcrc⟩ := hinv.suffixStands hp
  exact ⟨_, execAll_engineCrc (by rw [hp]; decide) (by rw [s.params.imgLen_eq]; omega), hcrc, rfl⟩

end Sys2Proof
end

section
/-! The load phase (R150 to R154): `FILL` and `LDB` as next states, and the image a list of loads leaves. -/

namespace Sys2Proof.Machine

variable {s : State}

/-! ## The commands of the load phase, accepted -/

theorem exec_nop (s : State) : exec .nop s = .next { s with resp := some 0#32 } :=
  exec_accepted (i := .nop) trivial trivial

theorem exec_fill (hp : s.ph = .rst) :
    exec .fill s = .next { s with img := Memory.erased, ph := .load, resp := some 0#32 } :=
  exec_accepted (i := .fill) hp trivial

theorem exec_ldb_outside {a : Half} (v : Byte) (hp : s.ph = .load) (hw : a.toNat < 0x0400 ∨ 0x8000 ≤ a.toNat) :
    exec (.ldb a v) s = .next { s with oob := true, resp := some 0#32 } := by
  rw [exec_accepted (i := .ldb a v) hp trivial, effect_ldb_outside v (by omega)]; rfl

/-- A byte of the image, through the memory primitive. -/
theorem State.memRead_one {a : Nat} (hp : s.ph ≠ .rst) (ha : a < s.params.imgLen) : s.memRead a 1 = .ok [s.img.read a] :=
  Block.memRead_ok hp ha

/-! ## The `OOB` gate (R171) -/

theorem afterPlace_of_oob {b : Block} (p : Params) (h : b.oob = true) : afterPlace p b = { b with ph := .fail } := by
  rw [afterPlace, if_pos h]

theorem exec_place_of_oob (hp : s.ph = .load) (hoob : s.oob = true) :
    exec .place s = .next { s with ph := .fail, resp := some 0#32 } := by
  rw [exec_eq, after_place hp, afterPlace_of_oob _ hoob]; rfl

theorem exec_run_of_oob (hp : s.ph = .load) (hoob : s.oob = true) :
    exec .run s = .next { s with ph := .fail, resp := some 0#32 } := by
  have hgate := afterPlace_of_oob s.params hoob
  rw [exec_eq, after_run hp, effect_run_failed (by simp [hgate]), hgate]; rfl

/-! ## Loads in a row -/

/-- The image with the bytes of a list of loads written, first load first. -/
def Memory.loadAll (m : Memory) (loads : List (Half × Byte)) : Memory :=
  loads.foldl (fun m l => m.write l.1.toNat l.2) m

/-- The last load at an offset is the first found from the end of the list. -/
theorem Memory.read_loadAll (m : Memory) (loads : List (Half × Byte)) (a : Nat) : (m.loadAll loads).read a =
    (loads.reverse.find? fun l => l.1.toNat == a).elim (m.read a) Prod.snd := by
  induction loads using List.reverseRecOn with
  | nil => rfl
  | append_singleton loads l ih =>
    have hlast : m.loadAll (loads ++ [l]) = (m.loadAll loads).write l.1.toNat l.2 := List.foldl_concat ..
    rw [hlast, Memory.read_write, ih, List.reverse_concat, List.find?_cons]
    by_cases ha : a = l.1.toNat
    · simp [ha]
    · simp [ha, beq_false_of_ne (Ne.symm ha)]

/-- Loads inside the window, in `LOAD`, write their bytes and nothing else. -/
theorem execAll_ldb (hp : s.ph = .load) (hresp : s.resp = some 0#32) (loads : List (Half × Byte))
    (hw : ∀ l ∈ loads, 0x0400 ≤ l.1.toNat ∧ l.1.toNat < 0x8000) :
    execAll (loads.map fun l => .ldb l.1 l.2) s = .next { s with img := s.img.loadAll loads } := by
  induction loads generalizing s with
  | nil => rfl
  | cons l loads ih =>
    obtain ⟨hl, hw⟩ := List.forall_mem_cons.mp hw
    have hexec := exec_ldb_inside l.2 hp hl
    rw [← hresp] at hexec
    rw [List.map_cons, execAll_cons_next hexec]
    exact ih hp hresp hw

/-- `FILL` and loads inside the window leave the erased image with their bytes written. -/
theorem execAll_fill_ldb (hp : s.ph = .rst) (loads : List (Half × Byte))
    (hw : ∀ l ∈ loads, 0x0400 ≤ l.1.toNat ∧ l.1.toNat < 0x8000) :
    execAll (.fill :: loads.map fun l => .ldb l.1 l.2) s =
      .next { s with img := Memory.erased.loadAll loads, ph := .load, resp := some 0#32 } := by
  rw [execAll_cons_next (exec_fill hp)]
  exact execAll_ldb rfl rfl loads hw

end Sys2Proof.Machine

namespace Sys2Proof

open Machine

/-- Settles O16: `NOP` by `exec_nop`, the encoding by the decoder's row. -/
theorem nopDoesNothing : Obligations.NopDoesNothing :=
  ⟨exec_nop, encodedZ_of_decode (decode_append 0x00#8)⟩

/-- Settles O17: the state of `exec_fill`, whose image can be read since its phase is no longer `RST`. -/
theorem fillErasesTheImage : Obligations.FillErasesTheImage := by
  refine ⟨fun s hp => ⟨_, exec_fill hp, fun a ha => ?_, rfl⟩, fun s hp => exec_outOfPhase (i := .fill) hp,
    encodedZ_of_decode (decode_append 0x01#8)⟩
  exact State.memRead_one (by simp) ha

/-- Settles O18: the state of `exec_ldb_inside`, by a read after a write. -/
theorem loadInsideTheWindowWritesOneByte : Obligations.LoadInsideTheWindowWritesOneByte :=
  fun _ _ v hp hlo hhi => ⟨_, exec_ldb_inside v hp ⟨hlo, hhi⟩, Memory.read_write_same _ _ _,
    fun _ hx => Memory.read_write_other _ _ hx, rfl⟩

/-- Settles O19: the load leaves a state in `LOAD` with `OOB` set, at whose gate `PLACE` and `RUN` fail. -/
theorem loadOutsideTheWindowSetsOob : Obligations.LoadOutsideTheWindowSetsOob := by
  intro s a v hp hw
  have hload := exec_ldb_outside v hp hw
  have hplace := exec_place_of_oob (s := { s with oob := true, resp := some 0#32 }) hp rfl
  have hrun := exec_run_of_oob (s := { s with oob := true, resp := some 0#32 }) hp rfl
  exact ⟨hload, ⟨_, (execAll_cons_next hload).trans (execAll_cons_next hplace), rfl, rfl⟩,
    ⟨_, (execAll_cons_next hload).trans (execAll_cons_next hrun), rfl, rfl⟩⟩

/-- Settles O20: out of phase refused, else the two sides of the window test. -/
theorem loadByteTestsPhaseThenWindow : Obligations.LoadByteTestsPhaseThenWindow := by
  refine ⟨decode_append 0x02#8, fun s a v hp => exec_outOfPhase (i := .ldb a v) hp, fun s a v hp => ?_⟩
  split_ifs with hw
  · exact ⟨_, exec_ldb_inside v hp hw, rfl, rfl, Memory.read_write_same _ _ _⟩
  · exact ⟨_, exec_ldb_outside v hp (by omega), rfl, rfl, rfl⟩

/-- Settles O21: the loads write their bytes over the erased image, and a read finds the last (`Memory.read_loadAll`). -/
theorem loadedImageHoldsTheLastBytes : Obligations.LoadedImageHoldsTheLastBytes := by
  intro s loads hp hw
  refine ⟨_, execAll_fill_ldb hp loads hw, fun a _ => ?_, rfl⟩
  rw [Memory.read_loadAll, Memory.read_erased]
  cases loads.reverse.find? fun l => l.1.toNat == a <;> rfl

end Sys2Proof
end

section
/-! Checksum placement (R170 to R174): `PLACE` past the `OOB` gate as a next state, and program memory once it is final. -/

namespace Sys2Proof.Machine

variable {s : State} {p : Params} {i : Instr} {b : Block}

/-! ## The two outcomes past the `OOB` gate (R173, R174) -/

theorem afterPlace_of_conflict (p : Params) (hoob : b.oob = false)
    (hslot : ¬(b.img.read 0x3EFE = 0xFF#8 ∧ b.img.read 0x3EFF = 0x3F#8)) :
    afterPlace p b = { b with s14 := windowSum p.ck14 b.img, conflict := true, ph := .fail } := by
  rw [afterPlace, hoob, if_neg Bool.false_ne_true, if_neg hslot]

theorem afterPlace_of_erased (p : Params) (hoob : b.oob = false)
    (hslot : b.img.read 0x3EFE = 0xFF#8 ∧ b.img.read 0x3EFF = 0x3F#8) :
    afterPlace p b =
      { b with s14 := windowSum p.ck14 b.img, img := b.img.withSlot (windowSum p.ck14 b.img), ph := .placed } := by
  rw [afterPlace, hoob, if_neg Bool.false_ne_true, if_pos hslot]

theorem exec_place (hp : s.ph = .load) : exec .place s = .next (s.deliver (afterPlace s.params s.toBlock, 0#32)) :=
  exec_accepted (i := .place) hp trivial

theorem exec_place_of_conflict (hp : s.ph = .load) (hoob : s.oob = false)
    (hslot : ¬(s.img.read 0x3EFE = 0xFF#8 ∧ s.img.read 0x3EFF = 0x3F#8)) :
    exec .place s =
      .next { s with s14 := windowSum s.params.ck14 s.img, conflict := true, ph := .fail, resp := some 0#32 } := by
  rw [exec_place hp, afterPlace_of_conflict _ hoob hslot]; rfl

theorem exec_place_of_erased (hp : s.ph = .load) (hoob : s.oob = false)
    (hslot : s.img.read 0x3EFE = 0xFF#8 ∧ s.img.read 0x3EFF = 0x3F#8) :
    exec .place s =
      .next { s with s14 := windowSum s.params.ck14 s.img, img := s.img.withSlot (windowSum s.params.ck14 s.img),
                     ph := .placed, resp := some 0#32 } := by
  rw [exec_place hp, afterPlace_of_erased _ hoob hslot]; rfl

/-! ## Program memory is final after `LOAD` (R174) -/

theorem read_after_of_not_phaseLegal {x : Nat} (h : ¬PhaseLegal i b.ph) : (after p i b).1.img.read x = b.img.read x := by
  rw [after_outOfPhase h, Block.raiseSeqerr_img]

/-- The commands that write program memory are refused after `LOAD`; `SUFFIX` writes above it, and the others write no byte. -/
theorem read_after_of_final (hp : b.ph = .placed ∨ b.ph = .done ∨ b.ph = .fail) {x : Nat} (hx : x < p.pmSize) :
    (after p i b).1.img.read x = b.img.read x := by
  have hrst : b.ph ≠ .rst := fun h => by simp [h] at hp
  have hload : b.ph ≠ .load := fun h => by simp [h] at hp
  cases i with
  | fill => exact read_after_of_not_phaseLegal hrst
  | ldb a v | place | run => exact read_after_of_not_phaseLegal hload
  | suffix => exact read_after_suffix (by omega)
  | _ => rw [img_after (by simp)]

end Sys2Proof.Machine

namespace Sys2Proof

open Machine

/-- Settles O23: the gate of `PLACE`. -/
theorem placeFailsWhenOutOfBounds : Obligations.PlaceFailsWhenOutOfBounds :=
  fun _ => exec_place_of_oob

/-- Settles O24: the state of `exec_place_of_conflict`, with the checksum as the sequence of its words. -/
theorem placeDetectsAConflict : Obligations.PlaceDetectsAConflict := by
  intro s hp hoob hslot
  rw [exec_place_of_conflict hp hoob hslot, windowSum_eq]

/-- Settles O25: the slot's bytes by `Memory.withSlot`'s reads; afterwards no command reaches below `PM_SIZE`
(`read_after_of_final`). -/
theorem placeStoresTheChecksum : Obligations.PlaceStoresTheChecksum := by
  refine ⟨fun s hp hoob hlo hhi => ⟨_, exec_place_of_erased hp hoob ⟨hlo, hhi⟩, windowSum_eq _ _, ?_, ?_, ?_, rfl⟩,
    fun s i hp => ⟨_, exec_eq i s, fun a ha => read_after_of_final hp ha⟩⟩
  · exact Memory.read_withSlot_lo _ _
  · exact Memory.read_withSlot_hi _ _
  · exact fun a hlo hhi => Memory.read_withSlot_other _ _ hlo hhi

/-- Settles O26: on either side of the slot test `S14` is the window's checksum (`s14_afterPlace`), which only the window's bytes
enter (`windowSum_congr`). -/
theorem placeSumsTheWindow : Obligations.PlaceSumsTheWindow := by
  refine ⟨fun s hp hoob => ⟨_, exec_place hp, ?_⟩, fun s u hps hpu hs hu hvariant hwindow =>
    ⟨_, _, exec_place hps, exec_place hpu, ?_⟩⟩
  · exact (s14_afterPlace s.params hoob).trans (windowSum_eq _ _)
  · calc (afterPlace s.params s.toBlock).s14
      _ = windowSum s.params.ck14 s.img := s14_afterPlace s.params hs
      _ = windowSum u.params.ck14 u.img := by rw [hvariant, windowSum_congr hwindow]
      _ = (afterPlace u.params u.toBlock).s14 := (s14_afterPlace u.params hu).symm

end Sys2Proof
end

section
/-! The suffix, the whole conversion and its output (R190 to R197): `SUFFIX`, `RUN` and `OUTB` as next states, and what a conversion
depends on. -/

namespace Sys2Proof.Machine

variable {s : State} {p : Params} {b c : Block} {m m' : Memory} {x : Nat}

/-! ## The commands, accepted (R190, R194, R195) -/

theorem exec_suffix (hp : s.ph = .placed) : exec .suffix s = .next (s.deliver (afterSuffix s.params s.toBlock, 0#32)) :=
  exec_accepted (i := .suffix) hp trivial

theorem exec_run (hp : s.ph = .load) : exec .run s = .next (s.deliver (effect s.params .run s.toBlock)) :=
  exec_accepted (i := .run) hp trivial

theorem exec_outb {a : Half} (hp : s.ph = .done) (ha : a.toNat < s.params.imgLen) :
    exec (.outb a) s = .next { s with resp := some ((s.img.read a.toNat).setWidth 32) } :=
  exec_accepted (i := .outb a) hp ha

theorem exec_outb_outOfPhase (a : Half) (hp : s.ph ≠ .done) :
    exec (.outb a) s = .next { s with seqerr := true, resp := some 0#32 } :=
  exec_outOfPhase (i := .outb a) hp

/-! ## One store into two images -/

/-- Where two images agree they agree after the same store. -/
theorem Memory.read_writeBytes_congr (bs : List Byte) (a : Nat) (h : m.read x = m'.read x) :
    (m.writeBytes a bs).read x = (m'.writeBytes a bs).read x := by
  induction bs generalizing m m' a with
  | nil => exact h
  | cons b bs ih => exact ih (a + 1) (by rw [Memory.read_write, Memory.read_write, h])

theorem Memory.read_withSlot_congr (sum : Acc14) (h : m.read x = m'.read x) :
    (m.withSlot sum).read x = (m'.withSlot sum).read x := by
  rw [Memory.withSlot, Memory.withSlot, Memory.read_writeBytes_congr _ _ h]

theorem Memory.read_withHeader_congr (p : Params) (h : m.read x = m'.read x) :
    (m.withHeader p).read x = (m'.withHeader p).read x := by
  rw [Memory.withHeader, Memory.withHeader, Memory.read_writeBytes_congr _ _ h]

theorem Memory.read_withCrc_congr (p : Params) (crc : Word) (h : m.read x = m'.read x) :
    (m.withCrc p crc).read x = (m'.withCrc p crc).read x := by
  rw [Memory.withCrc, Memory.withCrc, Memory.read_writeBytes_congr _ _ h]

/-! ## What a conversion depends on (R197) -/

/-- Two blocks that agree on all that a conversion reads: the phase, the flags and the bytes of the image, but neither the accumulators
nor the sticky bits. -/
structure SameConversion (p : Params) (b c : Block) : Prop where
  ph : b.ph = c.ph
  oob : b.oob = c.oob
  conflict : b.conflict = c.conflict
  read : ∀ a, a < p.imgLen → b.img.read a = c.img.read a

/-- The checksum window lies inside the image. -/
theorem SameConversion.windowSum_eq (h : SameConversion p b c) : windowSum p.ck14 b.img = windowSum p.ck14 c.img := by
  have hsize := p.winHi_le_pmSize
  have hlen := p.imgLen_eq
  exact windowSum_congr fun a _ ha => h.read a (by omega)

/-- The checksum slot lies inside the image. -/
theorem SameConversion.slotErased_iff (h : SameConversion p b c) :
    (b.img.read 0x3EFE = 0xFF#8 ∧ b.img.read 0x3EFF = 0x3F#8) ↔ c.img.read 0x3EFE = 0xFF#8 ∧ c.img.read 0x3EFF = 0x3F#8 := by
  have hsize := p.winHi_le_pmSize
  have hlen := p.imgLen_eq
  rw [h.read 0x3EFE (by omega), h.read 0x3EFF (by omega)]

/-- `PLACE` ends in the same way: at the gate, at the slot test, or with the same checksum stored. -/
theorem SameConversion.place (h : SameConversion p b c) : SameConversion p (afterPlace p b) (afterPlace p c) := by
  obtain hoob | hoob : c.oob = true ∨ c.oob = false := by cases c.oob <;> simp
  · rw [afterPlace_of_oob p (h.oob.trans hoob), afterPlace_of_oob p hoob]
    exact ⟨rfl, h.oob, h.conflict, h.read⟩
  by_cases hslot : c.img.read 0x3EFE = 0xFF#8 ∧ c.img.read 0x3EFF = 0x3F#8
  · rw [afterPlace_of_erased p (h.oob.trans hoob) (h.slotErased_iff.mpr hslot), afterPlace_of_erased p hoob hslot, h.windowSum_eq]
    exact ⟨rfl, h.oob, h.conflict, fun a ha => Memory.read_withSlot_congr _ (h.read a ha)⟩
  · rw [afterPlace_of_conflict p (h.oob.trans hoob) (mt h.slotErased_iff.mp hslot), afterPlace_of_conflict p hoob hslot]
    exact ⟨rfl, h.oob, rfl, h.read⟩

theorem SameConversion.suffixCrc_eq (h : SameConversion p b c) : suffixCrc p b = suffixCrc p c := by
  have hlen := p.imgLen_eq
  rw [suffixCrc, suffixCrc]
  exact prefixCrc_congr fun a ha => Memory.read_withHeader_congr p (h.read a (by omega))

/-- `SUFFIX` stores the same header and the same CRC. -/
theorem SameConversion.suffix (h : SameConversion p b c) : SameConversion p (afterSuffix p b) (afterSuffix p c) := by
  refine ⟨rfl, h.oob, h.conflict, fun a ha => ?_⟩
  rw [afterSuffix, afterSuffix, h.suffixCrc_eq]
  exact Memory.read_withCrc_congr p _ (Memory.read_withHeader_congr p (h.read a ha))

/-- `RUN` goes on to the suffix from both blocks or from neither. -/
theorem SameConversion.run (h : SameConversion p b c) : SameConversion p (effect p .run b).1 (effect p .run c).1 := by
  by_cases hplaced : (afterPlace p c).ph = .placed
  · rw [effect_run_placed (h.place.ph.trans hplaced), effect_run_placed hplaced]
    exact h.place.suffix
  · rw [effect_run_failed (by rwa [h.place.ph]), effect_run_failed hplaced]
    exact h.place

end Sys2Proof.Machine

namespace Sys2Proof

open Machine

/-- Settles O27: the state of `exec_suffix`; storing the CRC leaves the bytes it was computed from (`suffixCrc_eq`). -/
theorem suffixWritesHeaderAndCrc : Obligations.SuffixWritesHeaderAndCrc := by
  refine ⟨fun s hp => ⟨_, exec_suffix hp, headerAt_afterSuffix _ _, ?_, word32At_afterSuffix _ _,
    fun a ha => read_afterSuffix_outside _ _ ha, rfl⟩, fun s hp => exec_outOfPhase (i := .suffix) hp,
    encodedZ_of_decode (decode_append 0x04#8)⟩
  exact (suffixCrc_eq s.params s.toBlock).trans (prefixCrc_eq _ _)

/-- Settles O28: `RUN` has the two branches of `effect_run_placed` and `effect_run_failed`, and `SUFFIX` starts from the block `PLACE`
left. -/
theorem runIsPlaceThenSuffix : Obligations.RunIsPlaceThenSuffix := by
  refine ⟨fun s hp => ⟨_, exec_place hp, ?_⟩, fun s hp => exec_outOfPhase (i := .run) hp,
    encodedZ_of_decode (decode_append 0x05#8)⟩
  rw [exec_run hp]
  split_ifs with hplaced
  · rw [exec_suffix hplaced, effect_run_placed hplaced]; rfl
  · rw [effect_run_failed hplaced]

/-- Settles O30: accepted, refused by the phase, or refused by the operand. -/
theorem outbReturnsOneByte : Obligations.OutbReturnsOneByte :=
  ⟨fun _ _ => exec_outb, fun _ => exec_outb_outOfPhase,
    fun _ a hp ha => exec_badOperand (i := .outb a) hp (Nat.not_lt.mpr ha), encodedA_of_decode (decode_append 0x06#8)⟩

/-- Settles O31: every offset of the image fits the operand, so `exec_outb` returns its byte; out of `DONE` the refusal responds 0. -/
theorem outputOnlyWhenDone : Obligations.OutputOnlyWhenDone := by
  refine ⟨fun s k hp hk => ?_, fun s a hp => ⟨_, exec_outb_outOfPhase a hp, rfl⟩, fun s => ?_⟩
  · have hoperand : (BitVec.ofNat 16 k).toNat = k := Nat.mod_eq_of_lt (hk.trans_le s.params.imgLen_le)
    have hexec := exec_outb (a := BitVec.ofNat 16 k) hp (by rwa [hoperand])
    rw [hoperand] at hexec
    exact ⟨_, hexec, rfl, rfl, hp⟩
  · rw [getLsbD_status_outValid, decide_eq_true_iff]

/-- Settles O32: the hypotheses are `SameConversion` of the two blocks, which `RUN` keeps. -/
theorem conversionIsDeterministic : Obligations.ConversionIsDeterministic := by
  intro s u hs hu hparams hoob hconflict hread
  have hsame : SameConversion s.params s.toBlock u.toBlock := ⟨hs.trans hu.symm, hoob, hconflict, hread⟩
  have hexec := exec_run hu
  rw [← hparams] at hexec
  obtain ⟨hph, -, hconflict, hread⟩ := hsame.run
  exact ⟨_, _, exec_run hs, hexec, hph, hconflict, hread⟩

end Sys2Proof
end

section
/-! The error conditions (R264, R268): which of the four bits a command word can change, and the failing ends of `PLACE` and `RUN`. -/

namespace Sys2Proof.Machine

variable {s : State} {p : Params} {i : Instr} {b : Block}

/-- Once the phase allows a command, only its operand can have it refused, and that leaves `SEQERR`. -/
theorem seqerr_after_of_phaseLegal (hp : PhaseLegal i b.ph) : (after p i b).1.seqerr = b.seqerr := by
  by_cases ho : OperandLegal p i
  · exact (sticky_after hp ho).1
  · rw [after_badOperand hp ho, Block.raiseIllcmd_seqerr]

/-! ## At most one error bit changes (R268) -/

/-- Which of the four error bits differ between two blocks: `OOB`, `CONFLICT`, `SEQERR`, `ILLCMD`. -/
def changedErrors (b c : Block) : List Bool :=
  [b.oob != c.oob, b.conflict != c.conflict, b.seqerr != c.seqerr, b.illcmd != c.illcmd]

theorem count_changedErrors_raiseSeqerr (b : Block) : (changedErrors b b.raiseSeqerr).count true ≤ 1 := by
  simp only [changedErrors, Block.raiseSeqerr_oob, Block.raiseSeqerr_conflict, Block.raiseSeqerr_seqerr,
    Block.raiseSeqerr_illcmd, bne_self_eq_false]
  cases b.seqerr <;> decide

theorem count_changedErrors_raiseIllcmd (b : Block) : (changedErrors b b.raiseIllcmd).count true ≤ 1 := by
  simp only [changedErrors, Block.raiseIllcmd_oob, Block.raiseIllcmd_conflict, Block.raiseIllcmd_seqerr,
    Block.raiseIllcmd_illcmd, bne_self_eq_false]
  cases b.illcmd <;> decide

/-- No command writes both flags: `OOB` is written by `LDB`, `CONFLICT` by `PLACE` and `RUN`. -/
theorem oob_or_conflict_after (p : Params) (i : Instr) (b : Block) :
    (after p i b).1.oob = b.oob ∨ (after p i b).1.conflict = b.conflict := by
  by_cases hldb : ∃ a v, i = .ldb a v
  · obtain ⟨a, v, rfl⟩ := hldb
    exact .inr (conflict_after (by simp))
  · exact .inl (oob_after hldb)

/-- A refusal raises its one sticky bit; an accepted command raises none and at most one of the flags. -/
theorem count_changedErrors_after (p : Params) (i : Instr) (b : Block) : (changedErrors b (after p i b).1).count true ≤ 1 := by
  rcases after_cases p i b with ⟨-, hr⟩ | ⟨-, -, hr⟩ | ⟨hp, ho, -⟩
  · rw [hr]
    exact count_changedErrors_raiseSeqerr b
  · rw [hr]
    exact count_changedErrors_raiseIllcmd b
  · obtain ⟨hseq, hill⟩ := sticky_after hp ho
    rcases oob_or_conflict_after p i b with hflag | hflag <;>
      simp only [changedErrors, hseq, hill, hflag, bne_self_eq_false]
    · cases b.conflict != (after p i b).1.conflict <;> decide
    · cases b.oob != (after p i b).1.oob <;> decide

/-- A command word, legal or not, changes at most one of the error bits. -/
theorem count_changedErrors_step {t : State} {c : Word} {rest : List HostEvent} (hport : s.port = .command c :: rest)
    (hstep : step s = .next t) : (changedErrors s.toBlock t.toBlock).count true ≤ 1 := by
  rw [step_command hport, transact_eq] at hstep
  cases hstep
  cases decode c with
  | some i => exact count_changedErrors_after s.params i s.toBlock
  | none => exact count_changedErrors_raiseIllcmd s.toBlock

/-! ## `RUN` on an occupied slot (R173, R194) -/

theorem exec_run_of_conflict (hp : s.ph = .load) (hoob : s.oob = false)
    (hslot : ¬(s.img.read 0x3EFE = 0xFF#8 ∧ s.img.read 0x3EFF = 0x3F#8)) :
    exec .run s =
      .next { s with s14 := windowSum s.params.ck14 s.img, conflict := true, ph := .fail, resp := some 0#32 } := by
  have hplace := afterPlace_of_conflict s.params hoob hslot
  rw [exec_run hp, effect_run_failed (by simp [hplace]), hplace]; rfl

end Sys2Proof.Machine

namespace Sys2Proof

open Machine

/-- Settles O13: the refusal is the first test (`exec_outOfPhase`); past it nothing writes `SEQERR`. -/
theorem outOfPhaseCommandsAreRefused : Obligations.OutOfPhaseCommandsAreRefused :=
  ⟨fun _ _ => exec_outOfPhase, fun i s hp => ⟨_, exec_eq i s, seqerr_after_of_phaseLegal hp⟩⟩

/-- Settles O15: the count by `count_changedErrors_step`, the order of the tests by the next states of the refusals and of the failing
`PLACE` and `RUN`, and the two flags by the invariant that every step keeps. -/
theorem atMostOneErrorPerCommand : Obligations.AtMostOneErrorPerCommand :=
  ⟨fun _ _ _ _ => count_changedErrors_step,
    fun _ _ hp _ => ⟨_, exec_outOfPhase hp, rfl, rfl⟩,
    fun _ _ _ hport hc => ⟨_, step_illegal hport hc, rfl, rfl⟩,
    fun _ hp hoob _ => ⟨⟨_, exec_place_of_oob hp hoob, rfl, rfl⟩, _, exec_run_of_oob hp hoob, rfl, rfl⟩,
    fun _ hp hoob hslot =>
      ⟨⟨_, exec_place_of_conflict hp hoob hslot, rfl, rfl⟩, _, exec_run_of_conflict hp hoob hslot, rfl, rfl⟩,
    fun s t hinv hstep => (everyStepKeepsTheInvariants s t hinv hstep).notBoth⟩

end Sys2Proof
end

section
/-! Reset and hazards (70_reset_and_hazards.md): what every step but reset keeps (R301), and what engine-level commands between `PLACE`
and `SUFFIX` leave to the conversion (R309). -/

namespace Sys2Proof.Machine

variable {s t : State} {is js : List Instr} {p : Params} {i : Instr} {b c : Block}

/-! ## Lists of commands -/

theorem execAll_append (h : execAll is s = .next t) : execAll (is ++ js) s = execAll js t := by
  induction is generalizing s with
  | nil => cases h; rfl
  | cons i is ih =>
    rw [execAll_cons_next (exec_eq i s)] at h
    rw [List.cons_append, execAll_cons_next (exec_eq i s)]
    exact ih h

/-- A command that neither writes the image (R36) nor moves the phase (R35): not one of the five of the conversion. -/
def OutsideConversion (i : Instr) : Prop := ¬(i = .fill ∨ (∃ a v, i = .ldb a v) ∨ i = .place ∨ i = .suffix ∨ i = .run)

theorem OutsideConversion.img_after (h : OutsideConversion i) : (after p i b).1.img = b.img := Machine.img_after h

theorem OutsideConversion.ph_after (h : OutsideConversion i) : (after p i b).1.ph = b.ph :=
  Machine.ph_after (mt (Or.imp_right .inr) h)

/-- Any list of such commands ends, and leaves all that `SUFFIX` reads: the image, the phase and the build. -/
theorem execAll_outsideConversion (h : ∀ i ∈ is, OutsideConversion i) :
    ∃ t, execAll is s = .next t ∧ t.img = s.img ∧ t.ph = s.ph ∧ t.params = s.params := by
  induction is generalizing s with
  | nil => exact ⟨s, rfl, rfl, rfl, rfl⟩
  | cons i is ih =>
    obtain ⟨hi, his⟩ := List.forall_mem_cons.mp h
    obtain ⟨t, hexec, himg, hph, hparams⟩ := ih (s := s.deliver (after s.params i s.toBlock)) his
    exact ⟨t, (execAll_cons_next (exec_eq i s)).trans hexec, himg.trans hi.img_after, hph.trans hi.ph_after, hparams⟩

/-! ## What `SUFFIX` depends on (R192, R309) -/

/-- The CRC is of the image alone: neither accumulator enters. -/
theorem suffixCrc_congr (p : Params) (h : b.img = c.img) : suffixCrc p b = suffixCrc p c := by
  rw [suffixCrc, suffixCrc, h]

theorem img_afterSuffix_congr (p : Params) (h : b.img = c.img) : (afterSuffix p b).img = (afterSuffix p c).img := by
  rw [afterSuffix, afterSuffix, suffixCrc_congr p h, h]

/-! ## Nothing cleared, nothing moved back (R301) -/

/-- Every flag and sticky bit set in `b` is set in `c`, and the phase of `c` is no earlier. -/
structure Forward (b c : Block) : Prop where
  oob : b.oob = true → c.oob = true
  conflict : b.conflict = true → c.conflict = true
  seqerr : b.seqerr = true → c.seqerr = true
  illcmd : b.illcmd = true → c.illcmd = true
  ph : b.ph.code.toNat ≤ c.ph.code.toNat

theorem Forward.refl (b : Block) : Forward b b := ⟨id, id, id, id, le_rfl⟩

theorem forward_raiseIllcmd (b : Block) : Forward b b.raiseIllcmd := ⟨id, id, id, fun _ => rfl, le_rfl⟩

/-- No command clears a sticky bit: a refusal sets one, and an accepted command leaves both. -/
theorem sticky_after_of_set (p : Params) (i : Instr) (b : Block) :
    (b.seqerr = true → (after p i b).1.seqerr = true) ∧ (b.illcmd = true → (after p i b).1.illcmd = true) := by
  rcases after_cases p i b with ⟨-, hr⟩ | ⟨-, -, hr⟩ | ⟨hp, ho, -⟩
  · rw [hr]; exact ⟨fun _ => rfl, id⟩
  · rw [hr]; exact ⟨id, fun _ => rfl⟩
  · obtain ⟨hseq, hill⟩ := sticky_after hp ho (b := b)
    exact ⟨hseq.trans, hill.trans⟩

/-- The four transitions of R35 go up, and every other command leaves the phase. -/
theorem code_le_code_after (p : Params) (i : Instr) (b : Block) : b.ph.code.toNat ≤ (after p i b).1.ph.code.toNat := by
  by_cases hlegal : PhaseLegal i b.ph
  · cases i with
    | fill =>
      have hp : b.ph = .rst := hlegal
      rw [hp]; exact Nat.zero_le _
    | place =>
      have hp : b.ph = .load := hlegal
      rw [ph_after_place hp, hp]; split_ifs <;> decide
    | suffix =>
      have hp : b.ph = .placed := hlegal
      rw [after_suffix hp, afterSuffix_ph, hp]; decide
    | run =>
      have hp : b.ph = .load := hlegal
      rw [ph_after_run hp, hp]; split_ifs <;> decide
    | _ => rw [ph_after (by simp)]
  · rw [ph_after_of_not_phaseLegal hlegal]

theorem forward_after (p : Params) (i : Instr) (b : Block) : Forward b (after p i b).1 where
  oob h := (oob_after_iff p i b).mpr (.inl h)
  conflict h := (conflict_after_iff p i b).mpr (.inl h)
  seqerr := (sticky_after_of_set p i b).1
  illcmd := (sticky_after_of_set p i b).2
  ph := code_le_code_after p i b

theorem forward_step (hreset : ∀ rest, s.port ≠ .reset :: rest) (hstep : step s = .next t) : Forward s.toBlock t.toBlock := by
  rcases step_cases hstep with ⟨-, rfl⟩ | ⟨rest, hport, -⟩ | ⟨c, rest, i, -, -, rfl⟩ | ⟨c, rest, -, -, rfl⟩
  · exact .refl _
  · exact absurd hport (hreset rest)
  · exact forward_after s.params i s.toBlock
  · exact forward_raiseIllcmd s.toBlock

theorem params_step (hstep : step s = .next t) : t.params = s.params := by
  rcases step_cases hstep with ⟨-, rfl⟩ | ⟨rest, -, rfl⟩ | ⟨c, rest, i, -, -, rfl⟩ | ⟨c, rest, -, -, rfl⟩ <;> rfl

/-- Of the state before it, reset leaves the build alone. -/
theorem resetEvent_congr (rest : List HostEvent) (h : s.params = t.params) : s.resetEvent rest = t.resetEvent rest := by
  rw [State.resetEvent, State.resetEvent, h]

end Sys2Proof.Machine

namespace Sys2Proof

open Machine

/-- Settles O51: the engine-level commands leave all that `SUFFIX` reads (`execAll_outsideConversion`), and the accumulators they move
are none of it (`img_afterSuffix_congr`, `suffixCrc_congr`). -/
theorem engineCommandsCannotDisturbTheSuffix : Obligations.EngineCommandsCannotDisturbTheSuffix := by
  intro s is hp his
  have houtside : ∀ i ∈ is, OutsideConversion i := fun i hi => by
    rcases his i hi with rfl | ⟨a, rfl⟩ | ⟨a, rfl⟩ | rfl | rfl | ⟨b, rfl⟩ | ⟨a, rfl⟩ | rfl <;> simp [OutsideConversion]
  obtain ⟨t, hexec, himg, hph, hparams⟩ := execAll_outsideConversion (s := s) houtside
  have hsuffix := (execAll_append hexec).trans (execAll_cons_next (is := []) (exec_suffix (hph.trans hp)))
  rw [hparams] at hsuffix
  exact ⟨_, _, hsuffix, exec_suffix hp, img_afterSuffix_congr s.params himg, suffixCrc_congr s.params himg, rfl⟩

/-- Settles O56: `forward_step` for every event but reset; a second `FILL` is out of phase; and reset reads the build alone. -/
theorem onlyResetClearsFlagsOrMovesBack : Obligations.OnlyResetClearsFlagsOrMovesBack := by
  refine ⟨fun s t => params_step, fun s t hreset hstep => ?_, fun s hp => ⟨_, exec_outOfPhase (i := .fill) hp, rfl, rfl⟩,
    fun s u rest hs hu hparams => ⟨_, step_reset hs, ?_⟩⟩
  · obtain ⟨hoob, hconflict, hseq, hill, hph⟩ := forward_step hreset hstep
    exact ⟨hoob, hconflict, hseq, hill, hph⟩
  · rw [step_reset hu, resetEvent_congr rest hparams]

end Sys2Proof
end

section
/-! The step as a whole: its next state from every state, the reset event (R33, R300), the end states of `RUN` (R194), and what a command
can do in phases `RST` (R33), where it does not read the image, and `FAIL` (R270), where it does not write it. -/

namespace Sys2Proof.Machine

variable {s : State} {p : Params} {i : Instr} {b : Block}

/-! ## A step on each kind of event -/

theorem step_idle (hport : s.port = []) : step s = .next { s with resp := none } := by
  rw [step, hport]

/-- A command word, legal or not, has the host deliver what the block returns for it. -/
theorem exists_step_command {c : Word} {rest : List HostEvent} (hport : s.port = .command c :: rest) :
    ∃ t, step s = .next t := by
  rw [step_command hport, transact_eq]
  exact ⟨_, rfl⟩

/-! ## In `RST` the image is not read (R33) -/

/-- Of the commands that phase `RST` allows, `FILL` replaces the image, and the others neither read nor write it. -/
theorem effect_of_otherImage (hi : PhaseLegal i .rst) (m : Memory) :
    ∃ m', effect p i { b with img := m } = ({ (effect p i b).1 with img := m' }, (effect p i b).2) := by
  cases i with
  | fill => exact ⟨[], rfl⟩
  | ldb a v | place | suffix | run | outb a | ck14mem a | crc32mem a => simp [PhaseLegal] at hi
  | nop | rdst | ck14clr | ck14add a | rdck14 | crc32seed | crc32b v | rdcrc32 => exact ⟨m, rfl⟩

/-- In `RST` every command, refused or accepted, returns from another image the same response and the same block up to its image. -/
theorem after_of_otherImage (hp : b.ph = .rst) (m : Memory) :
    ∃ m', after p i { b with img := m } = ({ (after p i b).1 with img := m' }, (after p i b).2) := by
  rcases after_cases p i b with ⟨hi, hr⟩ | ⟨hi, ho, hr⟩ | ⟨hi, ho, hr⟩ <;> rw [hr]
  · exact ⟨m, after_outOfPhase hi⟩
  · exact ⟨m, after_badOperand hi ho⟩
  · rw [after_accepted (b := { b with img := m }) hi ho]
    exact effect_of_otherImage (hp ▸ hi) m

/-! ## `RUN` on an erased slot (R194) -/

theorem exec_run_of_erased (hp : s.ph = .load) (hoob : s.oob = false)
    (hslot : s.img.read 0x3EFE = 0xFF#8 ∧ s.img.read 0x3EFF = 0x3F#8) :
    exec .run s = .next (s.deliver (afterSuffix s.params { s.toBlock with
      s14 := windowSum s.params.ck14 s.img, img := s.img.withSlot (windowSum s.params.ck14 s.img), ph := .placed }, 0#32)) := by
  have hplace := afterPlace_of_erased s.params hoob hslot
  rw [exec_run hp, effect_run_placed (by rw [hplace]), hplace]

/-! ## In `FAIL` nothing is left to a command but the accumulators and the sticky bits (R270) -/

/-- Each of the five commands of the conversion has its one legal phase, and it is not `FAIL` (R264). -/
theorem not_phaseLegal_fail (hi : ¬OutsideConversion i) : ¬PhaseLegal i .fail := by
  rcases not_not.mp hi with rfl | ⟨a, v, rfl⟩ | rfl | rfl | rfl <;> simp [PhaseLegal]

theorem OutsideConversion.oob_after (h : OutsideConversion i) : (after p i b).1.oob = b.oob :=
  Machine.oob_after fun hldb => h (.inr (.inl hldb))

theorem OutsideConversion.conflict_after (h : OutsideConversion i) : (after p i b).1.conflict = b.conflict :=
  Machine.conflict_after fun hplacing => h (by rcases hplacing with rfl | rfl <;> simp)

/-- The commands of the conversion are refused, and the others write neither the image nor a flag. -/
theorem after_of_fail (hp : b.ph = .fail) : (after p i b).1.ph = .fail ∧ (after p i b).1.img = b.img ∧
    (after p i b).1.oob = b.oob ∧ (after p i b).1.conflict = b.conflict := by
  by_cases hi : OutsideConversion i
  · exact ⟨hi.ph_after.trans hp, hi.img_after, hi.oob_after, hi.conflict_after⟩
  · rw [after_outOfPhase (by rw [hp]; exact not_phaseLegal_fail hi)]
    exact ⟨hp, rfl, rfl, rfl⟩

end Sys2Proof.Machine

namespace Sys2Proof

open Machine

/-- Settles O9: the reset values by evaluation, and the image enters no command that phase `RST` allows (`after_of_otherImage`). -/
theorem resetStateHoldsTheSpecsValues : Obligations.ResetStateHoldsTheSpecsValues := by
  refine ⟨⟨rfl, rfl, rfl, rfl, rfl, rfl, rfl, by decide, fun a n => State.memRead_rst rfl a n⟩, fun i s m hp => ?_⟩
  obtain ⟨m', hafter⟩ := after_of_otherImage (p := s.params) (i := i) hp m
  refine ⟨_, _, exec_eq i s, exec_eq i _, ?_⟩
  rw [hafter]; rfl

/-- Settles O11, by the event the host presents: none, a command word, or reset. -/
theorem everyStepAnswersANextState : Obligations.EveryStepAnswersANextState := by
  intro s
  rcases hport : s.port with _ | ⟨c | _, rest⟩
  · exact ⟨_, step_idle hport⟩
  · exact exists_step_command hport
  · exact ⟨_, step_reset hport⟩

/-- Settles O29: the gate, the occupied slot, and the erased slot, where the suffix lies above the slot and leaves its bytes. -/
theorem runEndStates : Obligations.RunEndStates := by
  intro s hp
  refine ⟨exec_run_of_oob hp, exec_run_of_conflict hp, fun hoob hslot => ?_⟩
  have hsize := s.params.winHi_le_pmSize
  refine ⟨_, exec_run_of_erased hp hoob hslot, rfl, suffixCrc_eq _ _, ?_, ?_, headerAt_afterSuffix _ _, word32At_afterSuffix _ _,
    fun a hlo hhi ha => ?_, rfl⟩
  · exact (read_afterSuffix_outside _ _ (by omega)).trans (Memory.read_withSlot_lo _ _)
  · exact (read_afterSuffix_outside _ _ (by omega)).trans (Memory.read_withSlot_hi _ _)
  · exact (read_afterSuffix_outside _ _ ha).trans (Memory.read_withSlot_other _ _ hlo hhi)

/-- Settles O58: a step from `FAIL` is idle, the reset event, a command (`after_of_fail`) or an illegal word. -/
theorem failIsLeftOnlyByReset : Obligations.FailIsLeftOnlyByReset := by
  refine ⟨fun s t hp hstep => ?_, fun s i hp hi => ?_, fun s c rest hp hport hc => step_illegal hport hc⟩
  · rcases step_cases hstep with ⟨-, rfl⟩ | ⟨rest, hport, rfl⟩ | ⟨c, rest, i, -, -, rfl⟩ | ⟨c, rest, -, -, rfl⟩
    · exact .inr ⟨hp, rfl, rfl, rfl⟩
    · exact .inl ⟨rest, hport, rfl, State.memRead_rst rfl⟩
    · exact .inr (after_of_fail hp)
    · exact .inr ⟨hp, rfl, rfl, rfl⟩
  · refine exec_outOfPhase ?_
    rw [hp]
    exact not_phaseLegal_fail fun hout => hout (by rcases hi with rfl | rfl | ⟨a, v, rfl⟩ <;> simp)

/-- Settles O5, by evaluating the decoder and the assembler. -/
theorem exampleWordsDecode : Obligations.ExampleWordsDecode := by
  unfold Obligations.ExampleWordsDecode
  decide

/-- Settles O8: the state of `step_reset` is the reset block, whose phase gives the image no value. -/
theorem resetEventResetsEverything : Obligations.ResetEventResetsEverything :=
  fun _ _ hport => ⟨_, step_reset hport, rfl, rfl, rfl, rfl, rfl, rfl, rfl, State.memRead_rst rfl⟩

/-- Settles O10: with no event in the host's list the step is the idle one. -/
theorem idlePortChangesNothing : Obligations.IdlePortChangesNothing := fun _ => step_idle

end Sys2Proof
end
